-- ==== Sys2Proof/Word.lean ====
section
/-! DEFINITION. The two bit-vector types of the machine (spec 00_scope.md R5, R8). -/

namespace Sys2Proof

/-- `Word32` of R8: a register value, the program counter, an address or an instruction word.
`u(v)` is `v.toNat` and `s(v)` is `v.toInt` (two's complement, D1, log 1). -/
abbrev Word := BitVec 32

/-- One memory cell or one output byte (`BYTE` of R5). -/
abbrev Byte := BitVec 8

/-- A register index: a 5-bit field of the instruction word; every value names a register (R21). -/
abbrev RegIdx := BitVec 5

end Sys2Proof
end

