-- ==== Sys2Proof/Config.lean ====
section
/-! DEFINITION. What one machine fixes (00_scope.md R5), what a launch supplies (R6), and the
values the spec leaves open, as constants with no body. -/

namespace Sys2Proof

/-- One answer of the input oracle to `ReadInt()` (10_state.md R32). -/
inductive ReadAnswer where
  /-- The line was a base-10 integer that fits 32 bits signed. -/
  | value (v : Word)
  /-- The line was no such integer, or the input had ended. -/
  | invalid
deriving DecidableEq, Repr, Inhabited

/-- What the out-of-scope loader and the environment supply to one run (R6; 70_reset_and_hazards.md
R221): the instruction image, the open parameter `DATA_BASE`, the data image, and the answers of the
input oracle that the environment has already fixed. -/
structure Launch where
  text     : List Word
  dataBase : Word
  data     : List Word
  answers  : List ReadAnswer
deriving DecidableEq, Repr

namespace Config

/-- `TEXT_BASE`: address of the first instruction and reset value of the pc (R5). -/
def textBase : Word := 0x00400000#32

/-- `GP_IDX` (R5). -/
def gpIdx : RegIdx := 28#5

/-- `GP_INIT` (R5). -/
def gpInit : Word := 0x10008000#32

/-- `SP_IDX` (R5). -/
def spIdx : RegIdx := 29#5

/-- `SP_INIT` (R5). -/
def spInit : Word := 0x7FFFEFFC#32

/-- FREE VALUE. The answer to the read-integer request with this number, where the environment has
fixed none in advance (R32: "draws each one freely"; D15, U10; log 13). -/
opaque readAnswer : Nat → ReadAnswer

/-- FREE VALUE behind `NONZERO_STATUS` (R6, D16, U6; log 15). -/
opaque statusDraw : Int

end Config

end Sys2Proof
end

