-- ==== Sys2Proof/Syntax.lean ====
section
/-! DEFINITION. The instructions: one constructor per row of spec/opcode_table.json
(30_encoding.md R86). -/

namespace Sys2Proof

/-- The 15 instructions (R86), each with the fields of its word (R81). Bits that no row examines
(R89) are kept as a field of their own (`unused`, `code`, `rsField`): no meaning depends on them, but
the word that a fatal error records is the whole word (60_exceptions.md R193; log 10). -/
inductive Instr where
  -- R-format, R82
  | add (rd rs rt : RegIdx) (unused : BitVec 5)
  | sub (rd rs rt : RegIdx) (unused : BitVec 5)
  | and (rd rs rt : RegIdx) (unused : BitVec 5)
  | or (rd rs rt : RegIdx) (unused : BitVec 5)
  | slt (rd rs rt : RegIdx) (unused : BitVec 5)
  /-- `code` is bits 25 to 6, which SYSCALL ignores (R89). -/
  | syscall (code : BitVec 20)
  -- J-format, R84
  | j (target : BitVec 26)
  -- I-format, R83
  | beq (rs rt : RegIdx) (imm : BitVec 16)
  | bne (rs rt : RegIdx) (imm : BitVec 16)
  | addiu (rt rs : RegIdx) (imm : BitVec 16)
  | andi (rt rs : RegIdx) (imm : BitVec 16)
  | ori (rt rs : RegIdx) (imm : BitVec 16)
  /-- `rsField` is bits 25 to 21, which LUI ignores (R89). -/
  | lui (rt : RegIdx) (imm : BitVec 16) (rsField : BitVec 5)
  | lw (rt : RegIdx) (imm : BitVec 16) (rs : RegIdx)
  | sw (rt : RegIdx) (imm : BitVec 16) (rs : RegIdx)
deriving DecidableEq, Repr

end Sys2Proof
end

