-- ==== Sys2Proof/WellFormed.lean ====
section
/-! DEFINITION. Well-formedness of what a run is given.

An instruction needs no check: every 5-bit value names a register (10_state.md R21) and every value of
every field is a legal word of its row (30_encoding.md R89, R92), so the field types of `Instr` say it
all and every term is well-formed. What can be ill-formed is a launch: 70_reset_and_hazards.md R222
puts two requirements on the images. -/

namespace Sys2Proof

namespace Launch

/-- First address past the instruction image, before any wrap. -/
def textEnd (l : Launch) : Nat := Config.textBase.toNat + 4 * l.text.length

/-- First address past the data image, before any wrap. -/
def dataEnd (l : Launch) : Nat := l.dataBase.toNat + 4 * l.data.length

/-- R222: no image wraps round the top of the address space. -/
def imagesFit (l : Launch) : Bool := decide (l.textEnd ≤ 2 ^ 32 ∧ l.dataEnd ≤ 2 ^ 32)

/-- R222: the byte ranges of the two images are disjoint (an empty image meets nothing). -/
def imagesDisjoint (l : Launch) : Bool :=
  decide (l.text.length = 0 ∨ l.data.length = 0 ∨
    l.textEnd ≤ l.dataBase.toNat ∨ l.dataEnd ≤ Config.textBase.toNat)

/-- Both requirements of R222. -/
def wellFormed (l : Launch) : Bool := l.imagesFit && l.imagesDisjoint

end Launch

end Sys2Proof
end

