-- ==== Sys2Proof/Decode.lean ====
section
/-! DEFINITION. The decoder and the encoder (30_encoding.md R80 to R93; 40_decode_and_step.md R110,
R111). Both work on the unsigned value of the word, as R110 and the encoders of 95_test_vectors.md do. -/

namespace Sys2Proof

/-- `extract(left, right, w)` by the formula of R110: `floor(u(w) / 2^right) mod 2^(left-right+1)`. -/
def extract (left right : Nat) (w : Word) : BitVec (left - right + 1) :=
  BitVec.ofNat (left - right + 1) (w.toNat / 2 ^ right)

/-- The slices of one word (R81, R111); `unused` is bits 10 to 6 and `code` bits 25 to 6. -/
structure Fields where
  opcode : BitVec 6
  rs     : RegIdx
  rt     : RegIdx
  rd     : RegIdx
  unused : BitVec 5
  funct  : BitVec 6
  imm    : BitVec 16
  target : BitVec 26
  code   : BitVec 20
deriving DecidableEq, Repr

/-- Step 2 of R113: the decode of R111. It reads nothing but the word. -/
def fieldsOf (w : Word) : Fields :=
  { opcode := extract 31 26 w
    rs     := extract 25 21 w
    rt     := extract 20 16 w
    rd     := extract 15 11 w
    unused := extract 10 6 w
    funct  := extract 5 0 w
    imm    := extract 15 0 w
    target := extract 25 0 w
    code   := extract 25 6 w }

/-- The two ways the decoder rejects a word, by name (R90, R91). -/
inductive DecodeError where
  | invalidOpcode
  | invalidFunct
deriving DecidableEq, Repr

/-- The R-format map (R88): the rows with opcode 0, by funct. -/
def selectFunct (f : Fields) : Except DecodeError Instr :=
  match f.funct.toNat with
  | 32 => .ok (.add f.rd f.rs f.rt f.unused)
  | 34 => .ok (.sub f.rd f.rs f.rt f.unused)
  | 36 => .ok (.and f.rd f.rs f.rt f.unused)
  | 37 => .ok (.or f.rd f.rs f.rt f.unused)
  | 42 => .ok (.slt f.rd f.rs f.rt f.unused)
  | 12 => .ok (.syscall f.code)
  | _ => .error .invalidFunct

/-- Step 3 of R113: the primary map (R87). The opcode is examined first (R91, D13; log 11). -/
def select (f : Fields) : Except DecodeError Instr :=
  match f.opcode.toNat with
  | 0 => selectFunct f
  | 2 => .ok (.j f.target)
  | 4 => .ok (.beq f.rs f.rt f.imm)
  | 5 => .ok (.bne f.rs f.rt f.imm)
  | 9 => .ok (.addiu f.rt f.rs f.imm)
  | 12 => .ok (.andi f.rt f.rs f.imm)
  | 13 => .ok (.ori f.rt f.rs f.imm)
  | 15 => .ok (.lui f.rt f.imm f.rs)
  | 35 => .ok (.lw f.rt f.imm f.rs)
  | 43 => .ok (.sw f.rt f.imm f.rs)
  | _ => .error .invalidOpcode

/-- The decoder: total on every word (R92). -/
def decode (w : Word) : Except DecodeError Instr := select (fieldsOf w)

/-- R-format word (R82; `Rfmt` of 95_test_vectors.md, with bits 10 to 6 given). -/
def rFormat (rs rt rd : RegIdx) (unused : BitVec 5) (funct : Nat) : Word :=
  BitVec.ofNat 32 (rs.toNat * 2 ^ 21 + rt.toNat * 2 ^ 16 + rd.toNat * 2 ^ 11 + unused.toNat * 2 ^ 6 + funct)

/-- I-format word (R83; `Ifmt` of 95_test_vectors.md). -/
def iFormat (opcode : Nat) (rs rt : RegIdx) (imm : BitVec 16) : Word :=
  BitVec.ofNat 32 (opcode * 2 ^ 26 + rs.toNat * 2 ^ 21 + rt.toNat * 2 ^ 16 + imm.toNat)

/-- J-format word (R84; `Jfmt` of 95_test_vectors.md). -/
def jFormat (target : BitVec 26) : Word :=
  BitVec.ofNat 32 (2 * 2 ^ 26 + target.toNat)

/-- A word of SYSCALL: opcode 0, funct 12, any value in bits 25 to 6 (R89, R140). -/
def syscallWord (code : BitVec 20) : Word :=
  BitVec.ofNat 32 (code.toNat * 2 ^ 6 + 12)

/-- The word of an instruction, by the opcode and funct columns of R86. -/
def encode : Instr → Word
  | .add rd rs rt unused => rFormat rs rt rd unused 32
  | .sub rd rs rt unused => rFormat rs rt rd unused 34
  | .and rd rs rt unused => rFormat rs rt rd unused 36
  | .or rd rs rt unused => rFormat rs rt rd unused 37
  | .slt rd rs rt unused => rFormat rs rt rd unused 42
  | .syscall code => syscallWord code
  | .j target => jFormat target
  | .beq rs rt imm => iFormat 4 rs rt imm
  | .bne rs rt imm => iFormat 5 rs rt imm
  | .addiu rt rs imm => iFormat 9 rs rt imm
  | .andi rt rs imm => iFormat 12 rs rt imm
  | .ori rt rs imm => iFormat 13 rs rt imm
  | .lui rt imm rsField => iFormat 15 rsField rt imm
  | .lw rt imm rs => iFormat 35 rs rt imm
  | .sw rt imm rs => iFormat 43 rs rt imm

/-- One row of the table of R86. -/
structure OpcodeRow where
  mnemonic : String
  mask     : Word
  pattern  : Word
deriving DecidableEq, Repr

/-- The row selects the word: `(w & mask) == match` (R86). -/
def OpcodeRow.selects (r : OpcodeRow) (w : Word) : Bool := w &&& r.mask == r.pattern

/-- Rows 1 to 6 of R86. -/
def rFormatRows : List OpcodeRow :=
  [ ⟨"ADD", 0xFC00003F#32, 0x00000020#32⟩,
    ⟨"SUB", 0xFC00003F#32, 0x00000022#32⟩,
    ⟨"AND", 0xFC00003F#32, 0x00000024#32⟩,
    ⟨"OR", 0xFC00003F#32, 0x00000025#32⟩,
    ⟨"SLT", 0xFC00003F#32, 0x0000002A#32⟩,
    ⟨"SYSCALL", 0xFC00003F#32, 0x0000000C#32⟩ ]

/-- Rows 7 to 15 of R86. -/
def otherRows : List OpcodeRow :=
  [ ⟨"J", 0xFC000000#32, 0x08000000#32⟩,
    ⟨"BEQ", 0xFC000000#32, 0x10000000#32⟩,
    ⟨"BNE", 0xFC000000#32, 0x14000000#32⟩,
    ⟨"ADDIU", 0xFC000000#32, 0x24000000#32⟩,
    ⟨"ANDI", 0xFC000000#32, 0x30000000#32⟩,
    ⟨"ORI", 0xFC000000#32, 0x34000000#32⟩,
    ⟨"LUI", 0xFC000000#32, 0x3C000000#32⟩,
    ⟨"LW", 0xFC000000#32, 0x8C000000#32⟩,
    ⟨"SW", 0xFC000000#32, 0xAC000000#32⟩ ]

/-- The complete instruction set as R86 lists it, independent of `decode` and `encode`. -/
def opcodeTable : List OpcodeRow := rFormatRows ++ otherRows

/-- The mnemonic of an instruction, as R86 prints it. -/
def Instr.mnemonic : Instr → String
  | .add _ _ _ _ => "ADD"
  | .sub _ _ _ _ => "SUB"
  | .and _ _ _ _ => "AND"
  | .or _ _ _ _ => "OR"
  | .slt _ _ _ _ => "SLT"
  | .syscall _ => "SYSCALL"
  | .j _ => "J"
  | .beq _ _ _ => "BEQ"
  | .bne _ _ _ => "BNE"
  | .addiu _ _ _ => "ADDIU"
  | .andi _ _ _ => "ANDI"
  | .ori _ _ _ => "ORI"
  | .lui _ _ _ => "LUI"
  | .lw _ _ _ => "LW"
  | .sw _ _ _ => "SW"

/-- The instruction the decoder reads from a table word of `nbits` bits, every higher bit 0. Bit 0 of
the table is bit 0 of the word (R7), and an instruction is one word (R80). -/
def decodeTableWord (nbits w : Nat) : Option Instr :=
  match decode (BitVec.ofNat 32 (w % 2 ^ nbits)) with
  | .ok i => some i
  | .error _ => none

end Sys2Proof
end

