-- ==== Sys2Proof/Machine/Flags.lean ====
section
/-! DEFINITION. The machine has no flags or condition codes (10_state.md R30): no instruction sets one.
What it computes instead are the two comparisons of the ALU (40_decode_and_step.md R120), one bit each. -/

namespace Sys2Proof.Machine

/-- `slt`: 1 if `s(a) < s(b)` else 0. The signed values themselves are compared, not a wrapped
difference (R134). -/
def aluSlt (a b : Word) : Word := if a.toInt < b.toInt then 1#32 else 0#32

/-- `eq`: 1 if all 32 bits agree, else 0 (R120, R161). -/
def aluEq (a b : Word) : Word := if a = b then 1#32 else 0#32

end Sys2Proof.Machine
end

