-- ==== Sys2Proof/Machine/Alu.lean ====
section
/-! DEFINITION. The arithmetic-logic unit: the function table of 40_decode_and_step.md R120. It has no
state, sets no flags and never traps. -/

namespace Sys2Proof.Machine

/-- The operations of R120. -/
inductive AluOp where
  | add | sub | and | or | slt | eq | lui
deriving DecidableEq, Repr

/-- `add`: modulo 2^32, no overflow detection. -/
def aluAdd (a b : Word) : Word := a + b

/-- `sub`: modulo 2^32, no overflow detection. -/
def aluSub (a b : Word) : Word := a - b

/-- `and`: bitwise. -/
def aluAnd (a b : Word) : Word := a &&& b

/-- `or`: bitwise. -/
def aluOr (a b : Word) : Word := a ||| b

/-- `lui`: `b << 16`; the first operand is unused. -/
def aluLui (_a b : Word) : Word := b <<< 16

/-- The result of one operation (R120). -/
def alu : AluOp → Word → Word → Word
  | .add, a, b => aluAdd a b
  | .sub, a, b => aluSub a b
  | .and, a, b => aluAnd a b
  | .or, a, b => aluOr a b
  | .slt, a, b => aluSlt a b
  | .eq, a, b => aluEq a b
  | .lui, a, b => aluLui a b

end Sys2Proof.Machine
end

