-- ==== Sys2Proof/Machine/State.lean ====
section
/-! DEFINITION. The machine's state: the six items of 10_state.md R20 and nothing else, as plain data;
the reasons a run ends (60_exceptions.md R190); what makes a step stop; and reset (R34). -/

namespace Sys2Proof.Machine

/-- The sparse byte memory (R29): the mapped addresses with their bytes, addresses strictly rising.
An unlisted address is unmapped: it has no value at all (R29, R52). -/
abbrev Memory := List Host.Cell

/-- The fatal errors (60_exceptions.md R191 to R195), each with what it records. -/
inductive FatalError where
  /-- R191: raised by the step at decode; `word` is the instruction word, `pc` its address. -/
  | invalidOpcode (word pc : Word)
  /-- R192: raised by the step at decode. -/
  | invalidFunct (word pc : Word)
  /-- R193: raised by SYSCALL on an unlisted service number. -/
  | invalidSyscall (word pc : Word)
  /-- R194: raised by SYSCALL service 5 when the oracle answers `Invalid`. -/
  | invalidInput (word pc : Word)
  /-- R195: raised by a read of an unmapped byte; `addr` is that byte's address. -/
  | unmappedAccess (addr pc : Word)
deriving DecidableEq, Repr

/-- Why a run ended (R28, R190): one of the two normal ends (R197) or a fatal error (R196). -/
inductive HaltReason where
  /-- R112, R197: fetch found no instruction at the pc. -/
  | noMoreInstructions
  /-- R145, R197: SYSCALL service 10. -/
  | exit
  | fatal (e : FatalError)
deriving DecidableEq, Repr

/-- The run state (R28). -/
inductive RunState where
  | running
  | halted (r : HaltReason)
deriving DecidableEq, Repr

/-- The input oracle (R32). `known` holds the answers the environment has already fixed, next first;
when it is used up, request number `taken` is answered by the free value `Config.readAnswer taken`.
Both fields are the model's own form of the spec's oracle (log 13). -/
structure Oracle where
  known : List ReadAnswer
  taken : Nat
deriving DecidableEq, Repr

/-- The complete state (R20). Register `i` is `x[i]`; none is hard-wired (R23). -/
structure State where
  x      : Vector Word 32
  pc     : Word
  mem    : Memory
  run    : RunState
  out    : List Byte
  oracle : Oracle
deriving DecidableEq, Repr

/-- What makes a step stop with no next state. Every error the spec describes is a NEXT state with
`run` halted instead. -/
inductive Fault where
  /-- Raised by `step` alone, on a state whose run has already ended: a halted machine takes no step
  (R28, R201). Safe: nothing can be proved of a step that does not exist (log 16). -/
  | halted (r : HaltReason)
  /-- Raised by SYSCALL service 4 alone, when all 2^32 bytes are mapped and non-zero: the scan never
  ends and the step never completes (R114, R143, D24). Safe (log 18). -/
  | endlessScan
deriving DecidableEq, Repr

/-- What the model gives no meaning. -/
inductive Refusal where
  /-- For an arm of `exec` without a meaning. No arm is in that case. Safe. -/
  | notModelled (mnemonic : String)
  /-- Raised by `launch` alone: an image would wrap past 2^32 (R222, U9). Safe (log 8). -/
  | imageWraps
  /-- Raised by `launch` alone: the two images overlap (R222, U9). Safe (log 8). -/
  | imagesOverlap
deriving DecidableEq, Repr

/-- The registers at reset (R34): `$gp` and `$sp` as given, all others 0. -/
def resetRegisters : Vector Word 32 :=
  ((Vector.replicate 32 0#32).set Config.gpIdx.toNat Config.gpInit).set Config.spIdx.toNat Config.spInit

/-- The state at reset (R34) of a machine whose two images are empty. `launch` in Machine/Boot.lean
gives the reset state of any launch (R221). -/
def State.reset : State :=
  { x      := resetRegisters
    pc     := Config.textBase
    mem    := []
    run    := .running
    out    := []
    oracle := { known := [], taken := 0 } }

end Sys2Proof.Machine
end

