-- ==== Sys2Proof/Machine/Memory.lean ====
section
/-! DEFINITION. The byte memory: its canonical form and the access primitives of 20_memory.md R50 to
R52. Byte order and address wrap are decided here and nowhere else. -/

namespace Sys2Proof.Machine

namespace Memory

/-- The canonical form: addresses strictly rising and below `2^32`. No entry stands for an unmapped
address, so equal memories are equal lists. -/
def wf : Memory → Bool
  | [] => true
  | [(k, _)] => decide (k < 2 ^ 32)
  | (k, _) :: (k', b') :: rest => decide (k < k') && wf ((k', b') :: rest)

/-- The byte listed at a key, if any. -/
def lookup : Memory → Nat → Option Byte
  | [], _ => none
  | (k, b) :: rest, a => if a = k then some b else lookup rest a

/-- Lists a byte at a key, in order, replacing the one that stood there. -/
def insert : Memory → Nat → Byte → Memory
  | [], a, b => [(a, b)]
  | (k, c) :: rest, a, b =>
    if a < k then (a, b) :: (k, c) :: rest
    else if a = k then (a, b) :: rest
    else (k, c) :: insert rest a b

/-- `MemRead(a, 1)` where the byte is mapped, else none (R50, R52). -/
def readByte (m : Memory) (a : Word) : Option Byte := lookup m a.toNat

/-- `Mapped(a)` (R9, R29). -/
def mapped (m : Memory) (a : Word) : Bool := (m.readByte a).isSome

/-- `mem[a] <- b`: an unmapped byte becomes mapped, a mapped one is overwritten (R51). -/
def writeByte (m : Memory) (a : Word) (b : Byte) : Memory := insert m a.toNat b

end Memory

/-- The little-endian value of four bytes, `b0` at the lowest address (R50). -/
def wordOfBytes (b0 b1 b2 b3 : Byte) : Word :=
  BitVec.ofNat 32 (b0.toNat + 2 ^ 8 * b1.toNat + 2 ^ 16 * b2.toNat + 2 ^ 24 * b3.toNat)

/-- `v[8k+7:8k]`, the byte of `v` that stands at offset `k` of a stored word (R51, R54). -/
def byteOf (v : Word) (k : Nat) : Byte := BitVec.ofNat 8 (v.toNat / 2 ^ (8 * k))

namespace Memory

/-- `MemRead(a, 4)`: the bytes at `a`, `a+1`, `a+2`, `a+3` in that order, modulo 2^32 (R50, R57); at
the first unmapped one, its address (R52). -/
def readWord (m : Memory) (a : Word) : Except Word Word :=
  match m.readByte a with
  | none => .error a
  | some b0 =>
    match m.readByte (a + 1#32) with
    | none => .error (a + 1#32)
    | some b1 =>
      match m.readByte (a + 2#32) with
      | none => .error (a + 2#32)
      | some b2 =>
        match m.readByte (a + 3#32) with
        | none => .error (a + 3#32)
        | some b3 => .ok (wordOfBytes b0 b1 b2 b3)

/-- `MemWrite(a, 4, v)` (R51): never fails, at any alignment (R55). -/
def writeWord (m : Memory) (a v : Word) : Memory :=
  (((m.writeByte a (byteOf v 0)).writeByte (a + 1#32) (byteOf v 1)).writeByte (a + 2#32) (byteOf v 2)).writeByte
    (a + 3#32) (byteOf v 3)

/-- The words of an image, laid out 4 bytes apart from `a` upward (70_reset_and_hazards.md R221). -/
def storeWords (m : Memory) (a : Word) : List Word → Memory
  | [] => m
  | w :: ws => storeWords (m.writeWord a w) (a + 4#32) ws

end Memory

end Sys2Proof.Machine
end

