-- ==== Sys2Proof/Machine/Operands.lean ====
section
/-! DEFINITION. The operand forms of 30_encoding.md R85 and the fixed registers of SYSCALL. -/

namespace Sys2Proof.Machine

/-- `V0_IDX`: the service-number register (10_state.md R22, D11; PRESUMED, log 9). -/
def v0Idx : RegIdx := 2#5

/-- `A0_IDX`: the argument register (R22, D11; PRESUMED, log 9). -/
def a0Idx : RegIdx := 4#5

/-- `sext_32` (00_scope.md R8): ADDIU, LW, SW, BEQ, BNE. -/
def sext (imm : BitVec 16) : Word := imm.signExtend 32

/-- `zext_32` (R8): ANDI, ORI, LUI, "the raw 16-bit value". -/
def zext (imm : BitVec 16) : Word := imm.setWidth 32

/-- The branch displacement, a signed count of instructions: `sext_32(imm) << 2`. -/
def branchDisplacement (imm : BitVec 16) : Word := sext imm <<< 2

/-- The jump target: `zext_32(target) << 2`, with nothing of the pc in it (R160). -/
def jumpTarget (target : BitVec 26) : Word := target.setWidth 32 <<< 2

end Sys2Proof.Machine
end

