-- ==== Sys2Proof/Machine/Ops.lean ====
section
/-! DEFINITION. The shared operations over the state: registers, pc, memory, the environment's
streams, the end of a run, and the fetch. -/

namespace Sys2Proof.Machine

namespace State

/-- `x[i]` (10_state.md R21). Register 0 is read as its stored value (R23). -/
def readReg (s : State) (i : RegIdx) : Word :=
  s.x[i.toNat]'(by have := i.isLt; omega)

/-- `x[i] <- v` (R21). Register 0 is written like any other (R23, D2; log 2). -/
def writeReg (s : State) (i : RegIdx) (v : Word) : State :=
  { s with x := s.x.set i.toNat v (by have := i.isLt; omega) }

/-- `pc <- t` (R26). -/
def jumpTo (s : State) (t : Word) : State := { s with pc := t }

/-- The sequential successor `pc + 4`, modulo 2^32 (R26, D7; log 6). -/
def advance (s : State) : State := s.jumpTo (s.pc + 4#32)

/-- The memory after a store (R29). -/
def setMem (s : State) (m : Memory) : State := { s with mem := m }

/-- `Emit(b)` (R31). -/
def emit (s : State) (b : List Byte) : State := { s with out := s.out ++ b }

/-- The answer of `ReadInt()` in this state (R32): the next known one, else a free draw (log 13). -/
def nextAnswer (s : State) : ReadAnswer :=
  match s.oracle.known with
  | a :: _ => a
  | [] => Config.readAnswer s.oracle.taken

/-- The state once that answer has been taken: "each call consumes one line" (R32; log 14). -/
def takeAnswer (s : State) : State :=
  { s with oracle := { known := s.oracle.known.tail, taken := s.oracle.taken + 1 } }

/-- Entering `HALTED`, the one operation that ends a run (R28; 60_exceptions.md R196, R197): it sets
`run` and nothing else. There is no saved pc, vector, mode or handler, and nothing returns from it
(R201). -/
def enterHalted (s : State) (r : HaltReason) : State := { s with run := .halted r }

/-- `raise <Reason>(info)` (R196). -/
def raise (s : State) (e : FatalError) : State := s.enterHalted (.fatal e)

/-- The effective address of LW and SW, modulo 2^32 (R57; 45_load_store.md). -/
def effectiveAddress (s : State) (rs : RegIdx) (imm : BitVec 16) : Word :=
  alu .add (s.readReg rs) (sext imm)

/-- The target of a taken branch, modulo 2^32 (R26, R161). -/
def branchTarget (s : State) (imm : BitVec 16) : Word :=
  alu .add (s.pc + 4#32) (branchDisplacement imm)

/-- `x[d] <- v` and the sequential successor: the whole effect of every ALU instruction. -/
def retire (s : State) (d : RegIdx) (v : Word) : State := (s.writeReg d v).advance

end State

/-- The shape of ADD, SUB, AND, OR and SLT (41_alu_register.md). -/
def registerAlu (op : AluOp) (rd rs rt : RegIdx) (s : State) : State :=
  s.retire rd (alu op (s.readReg rs) (s.readReg rt))

/-- The shape of ADDIU, ANDI and ORI with the extended immediate as second operand
(44_alu_immediate.md). -/
def immediateAlu (op : AluOp) (rt rs : RegIdx) (operand : Word) (s : State) : State :=
  s.retire rt (alu op (s.readReg rs) operand)

/-- The shape of BEQ and BNE (43_control_transfer.md): no delay slot. -/
def branchIf (taken : Bool) (imm : BitVec 16) (s : State) : State :=
  if taken then s.jumpTo (s.branchTarget imm) else s.advance

/-- What the fetch and the decode of one step give (R113, steps 1 to 3): an instruction to execute, or
the state in which the run has ended. -/
inductive Fetched where
  | instr (i : Instr)
  | ended (s : State)
deriving DecidableEq, Repr

/-- The fatal error of a rejected word (30_encoding.md R90, R91). -/
def fatalOfDecodeError (e : DecodeError) (w pc : Word) : FatalError :=
  match e with
  | .invalidOpcode => .invalidOpcode w pc
  | .invalidFunct => .invalidFunct w pc

/-- Steps 2 and 3 of R113 on the fetched word. -/
def decodeFetched (w : Word) (s : State) : Fetched :=
  match decode w with
  | .ok i => .instr i
  | .error e => .ended (s.raise (fatalOfDecodeError e w s.pc))

/-- Steps 1 to 3 of R113. `IFetch` (20_memory.md R53): the byte at the pc unmapped is a normal end
(R112); a missing later byte is an unmapped access (R53, D9; log 7). -/
def fetchDecode (s : State) : Fetched :=
  if s.mem.mapped s.pc then
    match s.mem.readWord s.pc with
    | .ok w => decodeFetched w s
    | .error b => .ended (s.raise (.unmappedAccess b s.pc))
  else .ended (s.enterHalted .noMoreInstructions)

end Sys2Proof.Machine
end

