-- ==== Sys2Proof/Machine/Control.lean ====
section
/-! DEFINITION. J, BEQ, BNE (43_control_transfer.md R160 to R162): the net addressing, no delay slot
and no "uniform +4" afterwards (90_conflicts.md C1). -/

namespace Sys2Proof.Machine

/-- R160: `pc <- zext_32(target) << 2`. -/
def execJ (target : BitVec 26) (s : State) : Host.Outcome State Fault Refusal :=
  .next (s.jumpTo (jumpTarget target))

/-- R161: taken when the ALU's `eq` is 1. -/
def execBeq (rs rt : RegIdx) (imm : BitVec 16) (s : State) : Host.Outcome State Fault Refusal :=
  .next (branchIf (alu .eq (s.readReg rs) (s.readReg rt) == 1#32) imm s)

/-- R162: taken when the ALU's `eq` is 0. -/
def execBne (rs rt : RegIdx) (imm : BitVec 16) (s : State) : Host.Outcome State Fault Refusal :=
  .next (branchIf (alu .eq (s.readReg rs) (s.readReg rt) == 0#32) imm s)

end Sys2Proof.Machine
end

