-- ==== Sys2Proof/Machine/Immediate.lean ====
section
/-! DEFINITION. ADDIU, ANDI, ORI, LUI (44_alu_immediate.md R170 to R173). -/

namespace Sys2Proof.Machine

/-- R170: `x[rt] <- x[rs] + sext_32(imm)`, no overflow trap. -/
def execAddiu (rt rs : RegIdx) (imm : BitVec 16) (s : State) : Host.Outcome State Fault Refusal :=
  .next (immediateAlu .add rt rs (sext imm) s)

/-- R171: `x[rt] <- x[rs] & zext_32(imm)`. -/
def execAndi (rt rs : RegIdx) (imm : BitVec 16) (s : State) : Host.Outcome State Fault Refusal :=
  .next (immediateAlu .and rt rs (zext imm) s)

/-- R172: `x[rt] <- x[rs] | zext_32(imm)`. -/
def execOri (rt rs : RegIdx) (imm : BitVec 16) (s : State) : Host.Outcome State Fault Refusal :=
  .next (immediateAlu .or rt rs (zext imm) s)

/-- R173: `x[rt] <- zext_32(imm) << 16`. No register is read. -/
def execLui (rt : RegIdx) (imm : BitVec 16) (s : State) : Host.Outcome State Fault Refusal :=
  .next (s.retire rt (alu .lui 0#32 (zext imm)))

end Sys2Proof.Machine
end

