-- ==== Sys2Proof/Machine/LoadStore.lean ====
section
/-! DEFINITION. LW, SW (45_load_store.md R180, R181): any alignment, little-endian, addresses modulo
2^32. -/

namespace Sys2Proof.Machine

/-- R180: `x[rt] <- MemRead(ea, 4)`; at an unmapped byte `b`, `raise UnmappedAccess(b, pc)`. -/
def execLw (rt : RegIdx) (imm : BitVec 16) (rs : RegIdx) (s : State) : Host.Outcome State Fault Refusal :=
  match s.mem.readWord (s.effectiveAddress rs imm) with
  | .ok v => .next (s.retire rt v)
  | .error b => .next (s.raise (.unmappedAccess b s.pc))

/-- R181: `MemWrite(ea, 4, x[rt])`. It never fails. -/
def execSw (rt : RegIdx) (imm : BitVec 16) (rs : RegIdx) (s : State) : Host.Outcome State Fault Refusal :=
  .next (s.setMem (s.mem.writeWord (s.effectiveAddress rs imm) (s.readReg rt))).advance

end Sys2Proof.Machine
end

