-- ==== Sys2Proof/Machine/Register.lean ====
section
/-! DEFINITION. ADD, SUB, AND, OR, SLT (41_alu_register.md R130 to R134). -/

namespace Sys2Proof.Machine

/-- R130: `x[rd] <- x[rs] + x[rt]`, no overflow trap. -/
def execAdd (rd rs rt : RegIdx) (s : State) : Host.Outcome State Fault Refusal :=
  .next (registerAlu .add rd rs rt s)

/-- R131: `x[rd] <- x[rs] - x[rt]`, no overflow trap. -/
def execSub (rd rs rt : RegIdx) (s : State) : Host.Outcome State Fault Refusal :=
  .next (registerAlu .sub rd rs rt s)

/-- R132: `x[rd] <- x[rs] & x[rt]`. -/
def execAnd (rd rs rt : RegIdx) (s : State) : Host.Outcome State Fault Refusal :=
  .next (registerAlu .and rd rs rt s)

/-- R133: `x[rd] <- x[rs] | x[rt]`. -/
def execOr (rd rs rt : RegIdx) (s : State) : Host.Outcome State Fault Refusal :=
  .next (registerAlu .or rd rs rt s)

/-- R134: `x[rd] <- 1` if `s(x[rs]) < s(x[rt])`, else 0. -/
def execSlt (rd rs rt : RegIdx) (s : State) : Host.Outcome State Fault Refusal :=
  .next (registerAlu .slt rd rs rt s)

end Sys2Proof.Machine
end

