-- ==== Sys2Proof/Machine/System.lean ====
section
/-! DEFINITION. SYSCALL and its four services (42_system.md R140 to R146). -/

namespace Sys2Proof.Machine

/-- The ASCII byte of one decimal digit (R142, D14; log 12). -/
def digitByte (d : Nat) : Byte := BitVec.ofNat 8 (0x30 + d)

/-- The decimal digits of `n`, most significant first; `fuel + 1` of them at most. -/
def decimalDigits : Nat → Nat → List Byte
  | 0, n => [digitByte (n % 10)]
  | fuel + 1, n => if n < 10 then [digitByte n] else decimalDigits fuel (n / 10) ++ [digitByte (n % 10)]

/-- `Dec(n)` of R142, for `-2^31 <= n < 2^31`: ten digits are enough. -/
def decimalText (n : Int) : List Byte :=
  if n < 0 then 0x2D#8 :: decimalDigits 9 n.natAbs else decimalDigits 9 n.natAbs

/-- What the scan of a print string meets (R143). -/
inductive Scan where
  /-- A zero byte; `bytes` stand before it. -/
  | terminated (bytes : List Byte)
  /-- The unmapped address `addr`; `bytes` stand before it. -/
  | unmapped (bytes : List Byte) (addr : Word)
  /-- Neither within the bound. -/
  | endless
deriving DecidableEq, Repr

/-- The scan's result with one more byte in front. -/
def Scan.prepend (b : Byte) : Scan → Scan
  | .terminated bytes => .terminated (b :: bytes)
  | .unmapped bytes addr => .unmapped (b :: bytes) addr
  | .endless => .endless

/-- The loop of R143 from address `a`, over at most the given number of bytes; the running address
wraps (R57). -/
def scanString (m : Memory) : Nat → Word → Scan
  | 0, _ => .endless
  | fuel + 1, a =>
    match m.readByte a with
    | none => .unmapped [] a
    | some b => if b = 0#8 then .terminated [] else (scanString m fuel (a + 1#32)).prepend b

/-- The bound that D24 allows: after 2^32 bytes the scan has seen every address. -/
def scanBound : Nat := 2 ^ 32

/-- R142, service 1, print integer. -/
def printInteger (s : State) : Host.Outcome State Fault Refusal :=
  .next (s.emit (decimalText (s.readReg a0Idx).toInt)).advance

/-- R143, service 4, print string. Where the scan meets an unmapped byte, the bytes before it have been
appended to `out` (R143, R28, D18; log 17). -/
def printString (s : State) : Host.Outcome State Fault Refusal :=
  match scanString s.mem scanBound (s.readReg a0Idx) with
  | .terminated bytes => .next (s.emit bytes).advance
  | .unmapped bytes addr => .next ((s.emit bytes).raise (.unmappedAccess addr s.pc))
  | .endless => .fault .endlessScan

/-- R144, service 5, read integer: the answer replaces the service number in `x[V0_IDX]`. -/
def readInteger (word : Word) (s : State) : Host.Outcome State Fault Refusal :=
  match s.nextAnswer with
  | .value v => .next (s.takeAnswer.retire v0Idx v)
  | .invalid => .next (s.takeAnswer.raise (.invalidInput word s.pc))

/-- R145, service 10, exit. -/
def exitRun (s : State) : Host.Outcome State Fault Refusal :=
  .next (s.enterHalted .exit)

/-- R146, any other service number. -/
def invalidService (word : Word) (s : State) : Host.Outcome State Fault Refusal :=
  .next (s.raise (.invalidSyscall word s.pc))

/-- R140: dispatch on the whole of `x[V0_IDX]`. The fetched word, which a fatal error records, is the
SYSCALL word with the same ignored bits (log 10). -/
def execSyscall (code : BitVec 20) (s : State) : Host.Outcome State Fault Refusal :=
  match (s.readReg v0Idx).toNat with
  | 1 => printInteger s
  | 4 => printString s
  | 5 => readInteger (syscallWord code) s
  | 10 => exitRun s
  | _ => invalidService (syscallWord code) s

end Sys2Proof.Machine
end

