-- ==== Sys2Proof/Machine/Step.lean ====
section
/-! DEFINITION. The step (40_decode_and_step.md R113), and the placing of one instruction where the
next step fetches it. -/

namespace Sys2Proof.Machine

/-- R113. A halted machine takes no step (R28, R112, R201; log 16). -/
def step (s : State) : Host.Outcome State Fault Refusal :=
  match s.run with
  | .halted r => .fault (.halted r)
  | .running =>
    match fetchDecode s with
    | .instr i => exec i s
    | .ended s' => .next s'

/-- The state with one instruction word at the pc, little-endian (R53), and the run `RUNNING`, which
the fetch needs (R112). It stands for the loader, which is outside the machine (log 8). -/
def State.withFetchWord (s : State) (nbits w : Nat) : State :=
  { s with mem := s.mem.writeWord s.pc (BitVec.ofNat 32 (w % 2 ^ nbits)), run := .running }

end Sys2Proof.Machine
end

