-- ==== Sys2Proof/Machine/Boot.lean ====
section
/-! DEFINITION. Program start with any images (70_reset_and_hazards.md R220 to R222), and what the
environment reports at the end (60_exceptions.md R206). -/

namespace Sys2Proof.Machine

/-- R221: the memory at reset, exactly the bytes of the two images. -/
def imageMemory (l : Launch) : Memory :=
  (Memory.storeWords [] Config.textBase l.text).storeWords l.dataBase l.data

/-- R220: the reset state of R34 with the memory of R221 and the environment's known answers. A launch
that breaks R222 is given no meaning (D22, U9; log 8). -/
def launch (l : Launch) : Host.Outcome State Fault Refusal :=
  if l.imagesFit then
    if l.imagesDisjoint then
      .next { State.reset with mem := imageMemory l, oracle := { known := l.answers, taken := 0 } }
    else .refused .imagesOverlap
  else .refused .imageWraps

/-- `NONZERO_STATUS`: any value other than 0 (R6, U6; log 15). -/
def nonzeroStatus : Int := if Config.statusDraw = 0 then 1 else Config.statusDraw

/-- The exit status of R28's table. -/
def exitStatus : HaltReason → Int
  | .noMoreInstructions => 0
  | .exit => 0
  | .fatal _ => nonzeroStatus

end Sys2Proof.Machine
end

