-- ==== Sys2Proof/Safety.lean ====
section
/-! DEFINITION. The terms in which claims about the machine are stated: what a run's end means, the
invariant of every run, and the frames of the instruction families. -/

namespace Sys2Proof.Machine

/-- "A run has ended well exactly when the reason is `NoMoreInstructions` or `Exit`" (R115). -/
def HaltReason.endsWell : HaltReason → Bool
  | .noMoreInstructions => true
  | .exit => true
  | .fatal _ => false

/-- A running state, or one whose run has ended well. -/
def State.safe (s : State) : Bool :=
  match s.run with
  | .running => true
  | .halted r => r.endsWell

/-- What the state in which a run has ended shows of its reason (60_exceptions.md R191 to R195, R197):
the record names the instruction at the pc, and that instruction has this cause. -/
def haltExplained (s : State) : HaltReason → Prop
  | .noMoreInstructions => s.mem.mapped s.pc = false
  | .exit => ∃ w code, s.mem.readWord s.pc = .ok w ∧ decode w = .ok (.syscall code) ∧ s.readReg v0Idx = 10#32
  | .fatal (.invalidOpcode w p) =>
    p = s.pc ∧ s.mem.readWord s.pc = .ok w ∧ decode w = .error .invalidOpcode
  | .fatal (.invalidFunct w p) =>
    p = s.pc ∧ s.mem.readWord s.pc = .ok w ∧ decode w = .error .invalidFunct
  | .fatal (.invalidSyscall w p) =>
    p = s.pc ∧ s.mem.readWord s.pc = .ok w ∧ (∃ code, decode w = .ok (.syscall code)) ∧
      s.readReg v0Idx ≠ 1#32 ∧ s.readReg v0Idx ≠ 4#32 ∧ s.readReg v0Idx ≠ 5#32 ∧ s.readReg v0Idx ≠ 10#32
  | .fatal (.invalidInput w p) =>
    p = s.pc ∧ s.mem.readWord s.pc = .ok w ∧ (∃ code, decode w = .ok (.syscall code)) ∧
      s.readReg v0Idx = 5#32
  | .fatal (.unmappedAccess b p) => p = s.pc ∧ s.mem.mapped b = false

/-- The invariant of the machine: the memory keeps its canonical form, the pc is a multiple of 4
(10_state.md R27), and the record of an ended run is true of the state it ended in. -/
structure Inv (s : State) : Prop where
  memory  : s.mem.wf = true
  aligned : s.pc.toNat % 4 = 0
  halt    : ∀ r, s.run = .halted r → haltExplained s r

/-- Every register of `t` is as in `s`. -/
def SameRegisters (s t : State) : Prop := ∀ r, t.readReg r = s.readReg r

/-- Every byte of memory reads in `t` as in `s`. -/
def SameBytes (s t : State) : Prop := ∀ a, t.mem.readByte a = s.mem.readByte a

/-- `t` is `s` with register `d` holding `v` and the pc at `pc + 4`: every other register, every byte
of memory, the run state, the output and the oracle are as before. -/
def WritesOnly (s t : State) (d : RegIdx) (v : Word) : Prop :=
  t.readReg d = v ∧ (∀ r, r ≠ d → t.readReg r = s.readReg r) ∧ t.pc = s.pc + 4#32 ∧
    SameBytes s t ∧ t.run = s.run ∧ t.out = s.out ∧ t.oracle = s.oracle

/-- `t` is `s` with the pc at `p`: nothing else differs. -/
def JumpsOnly (s t : State) (p : Word) : Prop :=
  t.pc = p ∧ SameRegisters s t ∧ SameBytes s t ∧ t.run = s.run ∧ t.out = s.out ∧ t.oracle = s.oracle

/-- `t` is `s` with `b` appended to the output and the pc at `pc + 4`: nothing else differs. -/
def EmitsOnly (s t : State) (b : List Byte) : Prop :=
  t.out = s.out ++ b ∧ t.pc = s.pc + 4#32 ∧ SameRegisters s t ∧ SameBytes s t ∧ t.run = s.run ∧
    t.oracle = s.oracle

/-- `t` is `s` with the run ended for this reason: registers, memory, pc, output and oracle are as
before (R196, R197). -/
def HaltsOnly (s t : State) (r : HaltReason) : Prop :=
  t.run = .halted r ∧ SameRegisters s t ∧ SameBytes s t ∧ t.pc = s.pc ∧ t.out = s.out ∧ t.oracle = s.oracle

/-- `a` is one of the four byte addresses of a word access at `ea`, modulo 2^32 (R57). -/
def InWord (ea a : Word) : Prop := a = ea ∨ a = ea + 1#32 ∨ a = ea + 2#32 ∨ a = ea + 3#32

/-- The destination register of an instruction, where its word names one (10_state.md R24). -/
def destination : Instr → Option RegIdx
  | .add rd _ _ _ => some rd
  | .sub rd _ _ _ => some rd
  | .and rd _ _ _ => some rd
  | .or rd _ _ _ => some rd
  | .slt rd _ _ _ => some rd
  | .syscall _ => none
  | .j _ => none
  | .beq _ _ _ => none
  | .bne _ _ _ => none
  | .addiu rt _ _ => some rt
  | .andi rt _ _ => some rt
  | .ori rt _ _ => some rt
  | .lui rt _ _ => some rt
  | .lw rt _ _ => some rt
  | .sw _ _ _ => none

/-- The `written` column of R24's table: the destination register, or `x[V0_IDX]` for SYSCALL service 5. -/
def mayWrite (i : Instr) (s : State) (r : RegIdx) : Prop :=
  destination i = some r ∨ ((∃ code, i = .syscall code) ∧ s.readReg v0Idx = 5#32 ∧ r = v0Idx)

/-- The value that a string of decimal digit bytes denotes. -/
def digitsValue (bytes : List Byte) : Nat := bytes.foldl (fun n b => 10 * n + (b.toNat - 0x30)) 0

end Sys2Proof.Machine
end

