-- ==== Sys2Proof/Certificates/Slice0/Obligations.lean ====
section
/-! DEFINITION. The statements for the provers, from the spec's numbered rules.

Two marks recur in the docstrings. "Dn" is a decision that spec/92_eei_decisions.md calls the spec's own
choice; a statement that rests on one is 'derived'. "log n" is the model's entry for it. In every
statement of an instruction, the clauses on what is left alone, and that the next pc is `pc + 4` modulo
2^32, are the common part of its family file (D7, D23; log 6, log 19); that signed values are two's
complement is D1 (log 1), and that register 0 is an ordinary register is D2 (log 2). -/

open Sys2Proof Sys2Proof.Machine

/-! ### Encoding -/

/-- Words of 95_test_vectors.md (V1, V3, P3, P4) decode to the instructions the tables name, and two
illegal words are rejected by name. -/
def Obligations.KnownWordsDecode : Prop :=
  decode 0x012A4020#32 = .ok (.add 8#5 9#5 10#5 0#5) ∧
  decode 0x01285822#32 = .ok (.sub 11#5 9#5 8#5 0#5) ∧
  decode 0x01096024#32 = .ok (.and 12#5 8#5 9#5 0#5) ∧
  decode 0x01096825#32 = .ok (.or 13#5 8#5 9#5 0#5) ∧
  decode 0x014B4FEA#32 = .ok (.slt 9#5 10#5 11#5 31#5) ∧
  decode 0x03FFFFCC#32 = .ok (.syscall 0xFFFFF#20) ∧
  decode 0x0810000A#32 = .ok (.j 0x010000A#26) ∧
  decode 0x11290001#32 = .ok (.beq 9#5 9#5 1#16) ∧
  decode 0x1500FFFD#32 = .ok (.bne 8#5 0#5 0xFFFD#16) ∧
  decode 0x2409FFFF#32 = .ok (.addiu 9#5 0#5 0xFFFF#16) ∧
  decode 0x3130FF00#32 = .ok (.andi 16#5 9#5 0xFF00#16) ∧
  decode 0x35095678#32 = .ok (.ori 9#5 8#5 0x5678#16) ∧
  decode 0x3FE91234#32 = .ok (.lui 9#5 0x1234#16 31#5) ∧
  decode 0x8FBF0004#32 = .ok (.lw 31#5 4#16 29#5) ∧
  decode 0xAFA8FFFC#32 = .ok (.sw 8#5 0xFFFC#16 29#5) ∧
  decode 0x00000000#32 = .error .invalidFunct ∧
  decode 0xFC000000#32 = .error .invalidOpcode

/-- R110: bit extraction is floor-divide and modulo, which is the logical right shift and mask; it
succeeds for the full word. -/
def Obligations.ExtractIsShiftAndMask : Prop :=
  ∀ (l r : Nat) (w : Word), r ≤ l → l ≤ 31 →
    (extract l r w).toNat = w.toNat / 2 ^ r % 2 ^ (l - r + 1) ∧
    (extract l r w).toNat = (w.toNat >>> r) &&& ((1 <<< (l - r + 1)) - 1)

/-- R81: every field is the slice of the word at its own bit positions. -/
def Obligations.FieldsAreTheirBits : Prop :=
  ∀ w : Word,
    (∀ k < 6, (fieldsOf w).opcode.getLsbD k = w.getLsbD (26 + k)) ∧
    (∀ k < 5, (fieldsOf w).rs.getLsbD k = w.getLsbD (21 + k)) ∧
    (∀ k < 5, (fieldsOf w).rt.getLsbD k = w.getLsbD (16 + k)) ∧
    (∀ k < 5, (fieldsOf w).rd.getLsbD k = w.getLsbD (11 + k)) ∧
    (∀ k < 5, (fieldsOf w).unused.getLsbD k = w.getLsbD (6 + k)) ∧
    (∀ k < 6, (fieldsOf w).funct.getLsbD k = w.getLsbD k) ∧
    (∀ k < 16, (fieldsOf w).imm.getLsbD k = w.getLsbD k) ∧
    (∀ k < 26, (fieldsOf w).target.getLsbD k = w.getLsbD k)

/-- Decode and encode agree on every instruction, with every operand at every value (R81 to R86, R89). -/
def Obligations.DecodeOfEncodeIsIdentity : Prop :=
  ∀ i : Instr, decode (encode i) = .ok i

/-- No bit of an accepted word is lost: encoding what the decoder read gives the word back (R86, R89). -/
def Obligations.EncodeOfDecodeIsIdentity : Prop :=
  ∀ (w : Word) (i : Instr), decode w = .ok i → encode i = w

/-- R86: a row of the table selects a word, `(w & mask) == match`, exactly when the decoder reads that
row's instruction; and the rows' conditions are disjoint. -/
def Obligations.TableSelectsExactlyTheDecodedWords : Prop :=
  ∀ w : Word,
    (∀ row ∈ opcodeTable, row.selects w = true ↔ ∃ i, decode w = .ok i ∧ i.mnemonic = row.mnemonic) ∧
    (∀ row₁ ∈ opcodeTable, ∀ row₂ ∈ opcodeTable, row₁.selects w = true → row₂.selects w = true →
      row₁ = row₂)

/-- R90 to R92: the decoder rejects exactly the unlisted opcodes and, under opcode 0 alone, the unlisted
functs. That the opcode is examined first and that the two errors are distinct is D13 (log 11). -/
def Obligations.UnlistedWordsAreRejectedByName : Prop :=
  ∀ w : Word,
    (decode w = .error .invalidOpcode ↔
      w.toNat / 2 ^ 26 ∉ [0, 2, 4, 5, 9, 12, 13, 15, 35, 43]) ∧
    (decode w = .error .invalidFunct ↔
      w.toNat / 2 ^ 26 = 0 ∧ w.toNat % 2 ^ 6 ∉ [12, 32, 34, 36, 37, 42])

/-- R89 (D12, log 10): words that differ only in ignored bits have the same meaning. (a) bits 10 to 6 of
ADD, SUB, AND, OR, SLT; (c) bits 25 to 21 of LUI; (b) bits 25 to 6 of SYSCALL for the services, whose
outcome records no word. -/
def Obligations.IgnoredBitsChangeNothing : Prop :=
  ∀ (w w' : Word) (i i' : Instr) (s : State), decode w = .ok i → decode w' = .ok i' →
    (w.toNat / 2 ^ 26 = 0 → w.toNat % 2 ^ 6 ≠ 12 → w &&& 0xFFFFF83F#32 = w' &&& 0xFFFFF83F#32 →
      exec i s = exec i' s) ∧
    (w.toNat / 2 ^ 26 = 15 → w &&& 0xFC1FFFFF#32 = w' &&& 0xFC1FFFFF#32 → exec i s = exec i' s) ∧
    (w.toNat / 2 ^ 26 = 0 → w.toNat % 2 ^ 6 = 12 → w &&& 0xFC00003F#32 = w' &&& 0xFC00003F#32 →
      s.readReg v0Idx = 1#32 ∨ s.readReg v0Idx = 4#32 ∨ s.readReg v0Idx = 10#32 → exec i s = exec i' s)

/-! ### Register-register ALU -/

/-- R130, ADD: the encoding, and `x[rd] <- x[rs] + x[rt]`, the signed sum wrapped to 32 bits, for every
register (0 and aliases too); no trap. -/
def Obligations.AddWritesWrappedSum : Prop :=
  (∀ w : Word, w &&& 0xFC00003F#32 = 0x00000020#32 →
    decode w = .ok (.add (extract 15 11 w) (extract 25 21 w) (extract 20 16 w) (extract 10 6 w))) ∧
  ∀ (rd rs rt : RegIdx) (unused : BitVec 5) (s : State), ∃ t, exec (.add rd rs rt unused) s = .next t ∧
    WritesOnly s t rd (BitVec.ofInt 32 ((s.readReg rs).toInt + (s.readReg rt).toInt))

/-- R131, SUB: the encoding, and `x[rd] <- x[rs] - x[rt]` modulo 2^32; no trap. -/
def Obligations.SubWritesWrappedDifference : Prop :=
  (∀ w : Word, w &&& 0xFC00003F#32 = 0x00000022#32 →
    decode w = .ok (.sub (extract 15 11 w) (extract 25 21 w) (extract 20 16 w) (extract 10 6 w))) ∧
  ∀ (rd rs rt : RegIdx) (unused : BitVec 5) (s : State), ∃ t, exec (.sub rd rs rt unused) s = .next t ∧
    WritesOnly s t rd (BitVec.ofInt 32 ((s.readReg rs).toInt - (s.readReg rt).toInt))

/-- R132, AND: the encoding, and the bit-by-bit conjunction over all 32 bits. -/
def Obligations.AndWritesBitwiseConjunction : Prop :=
  (∀ w : Word, w &&& 0xFC00003F#32 = 0x00000024#32 →
    decode w = .ok (.and (extract 15 11 w) (extract 25 21 w) (extract 20 16 w) (extract 10 6 w))) ∧
  ∀ (rd rs rt : RegIdx) (unused : BitVec 5) (s : State), ∃ t v, exec (.and rd rs rt unused) s = .next t ∧
    WritesOnly s t rd v ∧
    ∀ k < 32, v.getLsbD k = ((s.readReg rs).getLsbD k && (s.readReg rt).getLsbD k)

/-- R133, OR: the encoding, and the bit-by-bit disjunction over all 32 bits. -/
def Obligations.OrWritesBitwiseDisjunction : Prop :=
  (∀ w : Word, w &&& 0xFC00003F#32 = 0x00000025#32 →
    decode w = .ok (.or (extract 15 11 w) (extract 25 21 w) (extract 20 16 w) (extract 10 6 w))) ∧
  ∀ (rd rs rt : RegIdx) (unused : BitVec 5) (s : State), ∃ t v, exec (.or rd rs rt unused) s = .next t ∧
    WritesOnly s t rd v ∧
    ∀ k < 32, v.getLsbD k = ((s.readReg rs).getLsbD k || (s.readReg rt).getLsbD k)

/-- R134, SLT: the encoding, and 1 or 0 by the comparison of the two signed values themselves. -/
def Obligations.SltWritesSignedComparison : Prop :=
  (∀ w : Word, w &&& 0xFC00003F#32 = 0x0000002A#32 →
    decode w = .ok (.slt (extract 15 11 w) (extract 25 21 w) (extract 20 16 w) (extract 10 6 w))) ∧
  ∀ (rd rs rt : RegIdx) (unused : BitVec 5) (s : State), ∃ t, exec (.slt rd rs rt unused) s = .next t ∧
    WritesOnly s t rd (if (s.readReg rs).toInt < (s.readReg rt).toInt then 1#32 else 0#32)

/-! ### Immediate ALU -/

/-- R170, ADDIU: the encoding, and the sum with the SIGN-extended immediate, modulo 2^32; no trap. -/
def Obligations.AddiuAddsSignedImmediate : Prop :=
  (∀ w : Word, w &&& 0xFC000000#32 = 0x24000000#32 →
    decode w = .ok (.addiu (extract 20 16 w) (extract 25 21 w) (extract 15 0 w))) ∧
  ∀ (rt rs : RegIdx) (imm : BitVec 16) (s : State), ∃ t, exec (.addiu rt rs imm) s = .next t ∧
    WritesOnly s t rt (BitVec.ofInt 32 ((s.readReg rs).toInt + imm.toInt))

/-- R171, ANDI: the encoding, and the conjunction with the ZERO-extended immediate: the high half of the
result is always 0. -/
def Obligations.AndiMasksWithRawImmediate : Prop :=
  (∀ w : Word, w &&& 0xFC000000#32 = 0x30000000#32 →
    decode w = .ok (.andi (extract 20 16 w) (extract 25 21 w) (extract 15 0 w))) ∧
  ∀ (rt rs : RegIdx) (imm : BitVec 16) (s : State), ∃ t v, exec (.andi rt rs imm) s = .next t ∧
    WritesOnly s t rt v ∧
    (∀ k < 16, v.getLsbD k = ((s.readReg rs).getLsbD k && imm.getLsbD k)) ∧
    (∀ k < 32, 16 ≤ k → v.getLsbD k = false)

/-- R172, ORI: the encoding, and the disjunction with the ZERO-extended immediate: the high half of the
result is that of `x[rs]`. -/
def Obligations.OriSetsWithRawImmediate : Prop :=
  (∀ w : Word, w &&& 0xFC000000#32 = 0x34000000#32 →
    decode w = .ok (.ori (extract 20 16 w) (extract 25 21 w) (extract 15 0 w))) ∧
  ∀ (rt rs : RegIdx) (imm : BitVec 16) (s : State), ∃ t v, exec (.ori rt rs imm) s = .next t ∧
    WritesOnly s t rt v ∧
    (∀ k < 16, v.getLsbD k = ((s.readReg rs).getLsbD k || imm.getLsbD k)) ∧
    (∀ k < 32, 16 ≤ k → v.getLsbD k = (s.readReg rs).getLsbD k)

/-- R173, LUI: the encoding (any rs field), and the word whose high half is `imm` and whose low half
is 0. -/
def Obligations.LuiLoadsHighHalf : Prop :=
  (∀ w : Word, w &&& 0xFC000000#32 = 0x3C000000#32 →
    decode w = .ok (.lui (extract 20 16 w) (extract 15 0 w) (extract 25 21 w))) ∧
  ∀ (rt : RegIdx) (imm : BitVec 16) (rsField : BitVec 5) (s : State), ∃ t,
    exec (.lui rt imm rsField) s = .next t ∧ WritesOnly s t rt (BitVec.ofNat 32 (imm.toNat * 2 ^ 16))

/-! ### Control transfer -/

/-- R160, J: the encoding, and the next pc is `target * 4` whatever the pc was; nothing else changes. -/
def Obligations.JumpGoesToTarget : Prop :=
  (∀ w : Word, w &&& 0xFC000000#32 = 0x08000000#32 → decode w = .ok (.j (extract 25 0 w))) ∧
  ∀ (target : BitVec 26) (s : State), ∃ t, exec (.j target) s = .next t ∧
    JumpsOnly s t (BitVec.ofNat 32 (4 * target.toNat))

/-- R161, BEQ: the encoding, and the next pc, both ways; nothing else changes. -/
def Obligations.BeqBranchesOnEqual : Prop :=
  (∀ w : Word, w &&& 0xFC000000#32 = 0x10000000#32 →
    decode w = .ok (.beq (extract 25 21 w) (extract 20 16 w) (extract 15 0 w))) ∧
  ∀ (rs rt : RegIdx) (imm : BitVec 16) (s : State), ∃ t, exec (.beq rs rt imm) s = .next t ∧
    JumpsOnly s t (if s.readReg rs = s.readReg rt then BitVec.ofInt 32 (s.pc.toNat + 4 + 4 * imm.toInt)
      else s.pc + 4#32)

/-- R162, BNE: the encoding, and the next pc, both ways; nothing else changes. -/
def Obligations.BneBranchesOnUnequal : Prop :=
  (∀ w : Word, w &&& 0xFC000000#32 = 0x14000000#32 →
    decode w = .ok (.bne (extract 25 21 w) (extract 20 16 w) (extract 15 0 w))) ∧
  ∀ (rs rt : RegIdx) (imm : BitVec 16) (s : State), ∃ t, exec (.bne rs rt imm) s = .next t ∧
    JumpsOnly s t (if s.readReg rs ≠ s.readReg rt then BitVec.ofInt 32 (s.pc.toNat + 4 + 4 * imm.toInt)
      else s.pc + 4#32)

/-! ### Loads and stores -/

/-- R180, LW, where all four bytes are mapped: the little-endian word at `x[rs] + sext(imm)`, at any
alignment and across the wrap (D5, D6; log 5, log 6). -/
def Obligations.LwLoadsLittleEndianWord : Prop :=
  ∀ (rt : RegIdx) (imm : BitVec 16) (rs : RegIdx) (s : State) (ea : Word) (b0 b1 b2 b3 : Byte),
    ea = BitVec.ofInt 32 ((s.readReg rs).toNat + imm.toInt) →
    s.mem.readByte ea = some b0 → s.mem.readByte (ea + 1#32) = some b1 →
    s.mem.readByte (ea + 2#32) = some b2 → s.mem.readByte (ea + 3#32) = some b3 →
    ∃ t, exec (.lw rt imm rs) s = .next t ∧
      WritesOnly s t rt (BitVec.ofNat 32
        (b0.toNat + 2 ^ 8 * b1.toNat + 2 ^ 16 * b2.toNat + 2 ^ 24 * b3.toNat))

/-- R180 and R52, LW, where a byte is unmapped: the fatal error names the lowest-offset unmapped byte and
nothing but `run` is written (D3, D17; log 3, log 16). -/
def Obligations.LwOfUnmappedByteIsFatal : Prop :=
  ∀ (rt : RegIdx) (imm : BitVec 16) (rs : RegIdx) (s : State) (ea : Word) (k : Nat), k < 4 →
    ea = BitVec.ofInt 32 ((s.readReg rs).toNat + imm.toInt) →
    (∀ j < k, s.mem.mapped (ea + BitVec.ofNat 32 j) = true) →
    s.mem.mapped (ea + BitVec.ofNat 32 k) = false →
    ∃ t, exec (.lw rt imm rs) s = .next t ∧
      HaltsOnly s t (.fatal (.unmappedAccess (ea + BitVec.ofNat 32 k) s.pc))

/-- R181, SW: the four bytes of `x[rt]`, lowest first, at the effective address; every other byte, every
register, the output, the oracle and the run state are as before; it never fails, mapped or not
(D4, D5, D6; log 4, log 5, log 6). -/
def Obligations.SwStoresLittleEndianWord : Prop :=
  ∀ (rt : RegIdx) (imm : BitVec 16) (rs : RegIdx) (s : State), ∃ t, exec (.sw rt imm rs) s = .next t ∧
    s.effectiveAddress rs imm = BitVec.ofInt 32 ((s.readReg rs).toNat + imm.toInt) ∧
    (∀ ea, s.effectiveAddress rs imm = ea →
      t.mem.readByte ea = some ((s.readReg rt).extractLsb' 0 8) ∧
      t.mem.readByte (ea + 1#32) = some ((s.readReg rt).extractLsb' 8 8) ∧
      t.mem.readByte (ea + 2#32) = some ((s.readReg rt).extractLsb' 16 8) ∧
      t.mem.readByte (ea + 3#32) = some ((s.readReg rt).extractLsb' 24 8) ∧
      ∀ a, ¬ InWord ea a → t.mem.readByte a = s.mem.readByte a) ∧
    SameRegisters s t ∧ t.pc = s.pc + 4#32 ∧ t.run = s.run ∧ t.out = s.out ∧ t.oracle = s.oracle

/-- R54: "storing a word W at address A with SW then loading from A with LW returns exactly W", whatever
registers form the two addresses. -/
def Obligations.SwThenLwReturnsTheWord : Prop :=
  ∀ (rt rs rt' rs' : RegIdx) (imm imm' : BitVec 16) (s t : State), exec (.sw rt imm rs) s = .next t →
    t.effectiveAddress rs' imm' = s.effectiveAddress rs imm →
    ∃ u, exec (.lw rt' imm' rs') t = .next u ∧ WritesOnly t u rt' (s.readReg rt)

/-! ### SYSCALL (the register indices 2 and 4 are D11; log 9) -/

/-- R142, service 1: the decimal text of the signed argument is appended, nothing else changes
(D14; log 12). -/
def Obligations.PrintIntegerEmitsDecimalText : Prop :=
  ∀ (code : BitVec 20) (s : State), s.readReg v0Idx = 1#32 →
    ∃ t, exec (.syscall code) s = .next t ∧ EmitsOnly s t (decimalText (s.readReg a0Idx).toInt)

/-- R142: what `Dec(n)` is: a minus sign for negatives, then the digits of the magnitude, no leading zero,
"0" for 0 (D14; log 12). -/
def Obligations.DecimalTextReadsBackAsTheInteger : Prop :=
  ∀ v : Word, ∃ digits, decimalText v.toInt = (if v.toInt < 0 then [0x2D#8] else []) ++ digits ∧
    digits ≠ [] ∧ (∀ b ∈ digits, 0x30 ≤ b.toNat ∧ b.toNat ≤ 0x39) ∧
    digitsValue digits = v.toInt.natAbs ∧ (digits.head? = some 0x30#8 → digits = [0x30#8])

/-- R143, service 4, where a zero byte ends the string: the bytes before it are appended unchanged, across
the wrap too, and nothing else changes (D6, D14; log 6, log 12). -/
def Obligations.PrintStringEmitsBytesBeforeZero : Prop :=
  ∀ (code : BitVec 20) (s : State) (bytes : List Byte), s.readReg v0Idx = 4#32 → bytes.length < 2 ^ 32 →
    (∀ k (h : k < bytes.length), bytes[k] ≠ 0#8 ∧
      s.mem.readByte (s.readReg a0Idx + BitVec.ofNat 32 k) = some bytes[k]) →
    s.mem.readByte (s.readReg a0Idx + BitVec.ofNat 32 bytes.length) = some 0#8 →
    ∃ t, exec (.syscall code) s = .next t ∧ EmitsOnly s t bytes

/-- R143, service 4, where the scan reaches an unmapped byte first: the fatal error names it. Nothing is
said of the output appended by that step (U5, D18; D3, log 3, log 17). -/
def Obligations.PrintStringOfUnmappedByteIsFatal : Prop :=
  ∀ (code : BitVec 20) (s : State) (n : Nat), s.readReg v0Idx = 4#32 → n < 2 ^ 32 →
    (∀ k < n, ∃ b, b ≠ 0#8 ∧ s.mem.readByte (s.readReg a0Idx + BitVec.ofNat 32 k) = some b) →
    s.mem.readByte (s.readReg a0Idx + BitVec.ofNat 32 n) = none →
    ∃ t, exec (.syscall code) s = .next t ∧
      t.run = .halted (.fatal (.unmappedAccess (s.readReg a0Idx + BitVec.ofNat 32 n) s.pc)) ∧
      SameRegisters s t ∧ SameBytes s t ∧ t.pc = s.pc ∧ t.oracle = s.oracle

/-- R143 and R114, service 4 over a memory with no zero and no unmapped byte: the step never completes,
which the model shows as the fault `endlessScan` (D24; log 18). -/
def Obligations.PrintStringWithoutEndNeverCompletes : Prop :=
  ∀ (code : BitVec 20) (s : State), s.readReg v0Idx = 4#32 →
    (∀ a, ∃ b, b ≠ 0#8 ∧ s.mem.readByte a = some b) → exec (.syscall code) s = .fault .endlessScan

/-- R144, service 5, where the oracle answers `Value(v)`: `v` replaces the service number, one answer is
consumed, and nothing else changes (D15; log 13). -/
def Obligations.ReadIntegerWritesTheAnswer : Prop :=
  ∀ (code : BitVec 20) (s : State) (v : Word), s.readReg v0Idx = 5#32 → s.nextAnswer = .value v →
    ∃ t, exec (.syscall code) s = .next t ∧ t.readReg v0Idx = v ∧
      (∀ r, r ≠ v0Idx → t.readReg r = s.readReg r) ∧ t.pc = s.pc + 4#32 ∧ SameBytes s t ∧
      t.run = s.run ∧ t.out = s.out ∧
      t.oracle.known = s.oracle.known.tail ∧ t.oracle.taken = s.oracle.taken + 1

/-- R144, service 5, where the oracle answers `Invalid`: the fatal error records the word and the pc;
registers (the 5 in register 2 too), memory, pc and output are as before (D15, D17; log 13, log 16). -/
def Obligations.ReadIntegerOfInvalidInputIsFatal : Prop :=
  ∀ (code : BitVec 20) (s : State), s.readReg v0Idx = 5#32 → s.nextAnswer = .invalid →
    ∃ t, exec (.syscall code) s = .next t ∧
      t.run = .halted (.fatal (.invalidInput (encode (.syscall code)) s.pc)) ∧
      SameRegisters s t ∧ SameBytes s t ∧ t.pc = s.pc ∧ t.out = s.out

/-- R145, service 10: the run ends with reason `Exit`; registers, memory, output and pc keep their values
(D17; log 16). -/
def Obligations.ExitEndsTheRun : Prop :=
  ∀ (code : BitVec 20) (s : State), s.readReg v0Idx = 10#32 →
    ∃ t, exec (.syscall code) s = .next t ∧ HaltsOnly s t .exit

/-- R146: any other value of the WHOLE service-number register is the fatal error `InvalidSyscall`, which
records the word and the pc; nothing is written (D17; log 16). -/
def Obligations.UnlistedServiceIsFatal : Prop :=
  ∀ (code : BitVec 20) (s : State), s.readReg v0Idx ≠ 1#32 → s.readReg v0Idx ≠ 4#32 →
    s.readReg v0Idx ≠ 5#32 → s.readReg v0Idx ≠ 10#32 →
    ∃ t, exec (.syscall code) s = .next t ∧
      HaltsOnly s t (.fatal (.invalidSyscall (encode (.syscall code)) s.pc))

/-- R141, what SYSCALL never does: write the argument register or memory, change the pc other than to
`pc + 4`, or write a register other than `x[V0_IDX]` in service 5. The pc stays where it was exactly where
the service has ended the run (D17; log 16); where it completes, `run` is left alone. -/
def Obligations.SyscallLeavesTheRestAlone : Prop :=
  ∀ (code : BitVec 20) (s t : State), exec (.syscall code) s = .next t →
    t.readReg a0Idx = s.readReg a0Idx ∧ SameBytes s t ∧
    (t.pc = s.pc + 4#32 ∧ t.run = s.run ∨ t.pc = s.pc ∧ ∃ r, t.run = .halted r) ∧
    (∀ r, r ≠ v0Idx ∨ s.readReg v0Idx ≠ 5#32 → t.readReg r = s.readReg r)

/-! ### The step -/

/-- R113: when the word at the pc decodes to `i`, a running machine's step is `exec i` on that very state
(the pre-state; the pc still addresses the instruction). -/
def Obligations.StepRunsTheDecodedInstruction : Prop :=
  ∀ (s : State) (w : Word) (i : Instr), s.run = .running → s.mem.readWord s.pc = .ok w →
    decode w = .ok i → step s = exec i s

/-- R53, R113: a word of any instruction placed at the pc (as the loader would, log 8) is fetched, decoded
and executed by the very next step, whatever else the memory holds, the pc's wrap included. -/
def Obligations.PlacedInstructionRunsNext : Prop :=
  ∀ (i : Instr) (s : State),
    step (s.withFetchWord 32 (encode i).toNat) = exec i (s.withFetchWord 32 (encode i).toNat)

/-- R112: no instruction at the pc is a normal end of the run, and nothing but `run` is written. That the
byte at the pc alone decides it is D9 (log 7); D17 (log 16). -/
def Obligations.MissingInstructionEndsTheRun : Prop :=
  ∀ s : State, s.run = .running → s.mem.mapped s.pc = false →
    ∃ t, step s = .next t ∧ HaltsOnly s t .noMoreInstructions

/-- R53: a half-present instruction is an unmapped access that names the first missing byte
(D9, D17; log 7, log 16). -/
def Obligations.PartialInstructionIsFatal : Prop :=
  ∀ (s : State) (k : Nat), s.run = .running → 0 < k → k < 4 →
    (∀ j < k, s.mem.mapped (s.pc + BitVec.ofNat 32 j) = true) →
    s.mem.mapped (s.pc + BitVec.ofNat 32 k) = false →
    ∃ t, step s = .next t ∧ HaltsOnly s t (.fatal (.unmappedAccess (s.pc + BitVec.ofNat 32 k) s.pc))

/-- R90, R91, R191, R192: a fetched word with an unlisted opcode, or with opcode 0 and an unlisted funct,
ends the run with the error of its name, which records the word and the pc (D13, D17; log 11, log 16). -/
def Obligations.UnlistedWordEndsTheRun : Prop :=
  ∀ (s : State) (w : Word), s.run = .running → s.mem.readWord s.pc = .ok w →
    (w.toNat / 2 ^ 26 ∉ [0, 2, 4, 5, 9, 12, 13, 15, 35, 43] →
      ∃ t, step s = .next t ∧ HaltsOnly s t (.fatal (.invalidOpcode w s.pc))) ∧
    (w.toNat / 2 ^ 26 = 0 → w.toNat % 2 ^ 6 ∉ [12, 32, 34, 36, 37, 42] →
      ∃ t, step s = .next t ∧ HaltsOnly s t (.fatal (.invalidFunct w s.pc)))

/-- R28, R201: `HALTED` is terminal. The model shows the absent step as a fault (log 16). -/
def Obligations.HaltedMachineTakesNoStep : Prop :=
  ∀ (s : State) (r : HaltReason), s.run = .halted r → step s = .fault (.halted r)

/-- R28, R196, R197: the step that ends a run keeps registers, memory and pc, whatever instruction or
fetch ended it (D17; log 16). -/
def Obligations.HaltingStepKeepsRegistersMemoryAndPc : Prop :=
  ∀ s t : State, step s = .next t → t.run ≠ .running → SameRegisters s t ∧ t.mem = s.mem ∧ t.pc = s.pc

/-- R114: no running machine's step is stuck, but for a print string over 2^32 mapped non-zero bytes, and
none is given no meaning (D24; log 16, log 18). -/
def Obligations.StepStopsOnlyWhereTheSpecSays : Prop :=
  ∀ s : State,
    (∀ f, step s = .fault f →
      (∃ r, s.run = .halted r ∧ f = .halted r) ∨
      (s.run = .running ∧ f = .endlessScan ∧ s.readReg v0Idx = 4#32 ∧
        ∀ a, ∃ b, b ≠ 0#8 ∧ s.mem.readByte a = some b)) ∧
    ∀ r, step s ≠ .refused r

/-! ### Whole-machine rules -/

/-- The invariant (canonical memory; R27, pc a multiple of 4; R191 to R195 and R197, the record of an
ended run is true of the state it ended in) is kept by every step of every state that has it. -/
def Obligations.StepKeepsTheInvariant : Prop :=
  ∀ s t : State, Inv s → step s = .next t → Inv t

/-- The invariant holds at reset (R34). -/
def Obligations.ResetHasTheInvariant : Prop := Inv State.reset

/-- The invariant holds at program start with any images (R220, R221). -/
def Obligations.LaunchHasTheInvariant : Prop :=
  ∀ (l : Launch) (s : State), launch l = .next s → Inv s

/-- The invariant holds in every state that any program reaches from its start in any number of steps
(R115, R27): the consequence of `StepKeepsTheInvariant` and `LaunchHasTheInvariant` over a whole run. -/
def Obligations.EveryRunKeepsTheInvariant : Prop :=
  ∀ (l : Launch) (s t : State) (n : Nat), launch l = .next s → core.run n s = .next t → Inv t

/-- R29: "mutated only by store instructions": an instruction that leaves another memory than it found is
SW. -/
def Obligations.OnlyStoresChangeMemory : Prop :=
  ∀ (i : Instr) (s t : State), exec i s = .next t → t.mem ≠ s.mem → ∃ rt imm rs, i = .sw rt imm rs

/-- R29: memory "never shrinks": an address that is mapped stays mapped across every step. -/
def Obligations.MappedAddressesStayMapped : Prop :=
  ∀ (s t : State) (a : Word), step s = .next t → s.mem.mapped a = true → t.mem.mapped a = true

/-- R24: the table of register writers, for every instruction at once: a register that the table does not
let the instruction write is unchanged. -/
def Obligations.OnlyTheTablesRegisterIsWritten : Prop :=
  ∀ (i : Instr) (s t : State), exec i s = .next t →
    ∀ r, ¬ mayWrite i s r → t.readReg r = s.readReg r

/-- R26: the next pc of every instruction that leaves the run going (D7; log 6). -/
def Obligations.NextPcFollowsTheTable : Prop :=
  ∀ (i : Instr) (s t : State), s.run = .running → exec i s = .next t → t.run = .running →
    t.pc = match i with
      | .j target => BitVec.ofNat 32 (4 * target.toNat)
      | .beq rs rt imm =>
        if s.readReg rs = s.readReg rt then BitVec.ofInt 32 (s.pc.toNat + 4 + 4 * imm.toInt) else s.pc + 4#32
      | .bne rs rt imm =>
        if s.readReg rs ≠ s.readReg rt then BitVec.ofInt 32 (s.pc.toNat + 4 + 4 * imm.toInt) else s.pc + 4#32
      | _ => s.pc + 4#32

/-- R31: the output is only ever appended to, and only by SYSCALL services 1 and 4. -/
def Obligations.OutputOnlyGrowsAndOnlyByPrinting : Prop :=
  ∀ (i : Instr) (s t : State), exec i s = .next t → ∃ b, t.out = s.out ++ b ∧
    (b ≠ [] → (∃ code, i = .syscall code) ∧ (s.readReg v0Idx = 1#32 ∨ s.readReg v0Idx = 4#32))

/-- R32, R114: the oracle decides nothing outside service 5: for any other instruction or service, two
states that differ only in the oracle have the same outcome, each with its own oracle (log 13). -/
def Obligations.OracleMattersOnlyToReadInteger : Prop :=
  ∀ (i : Instr) (s : State) (o : Oracle), ((∃ code, i = .syscall code) → s.readReg v0Idx ≠ 5#32) →
    exec i { s with oracle := o } =
      match exec i s with
      | .next t => .next { t with oracle := o }
      | .fault f => .fault f
      | .refused r => .refused r

/-- R31: "The machine never reads `out`": a step from a state with more output already written does the
same, with that output in front. -/
def Obligations.OutputIsNeverRead : Prop :=
  ∀ (s : State) (o : List Byte),
    step { s with out := o ++ s.out } =
      match step s with
      | .next t => .next { t with out := o ++ t.out }
      | .fault f => .fault f
      | .refused r => .refused r

/-- R63 (D8, log 7): a store over the next instruction is seen by the next fetch: the word stored at
`pc + 4` is the instruction the next step executes. -/
def Obligations.StoredInstructionIsFetchedNext : Prop :=
  ∀ (rt : RegIdx) (imm : BitVec 16) (rs : RegIdx) (s t : State) (i : Instr), s.run = .running →
    s.effectiveAddress rs imm = s.pc + 4#32 → decode (s.readReg rt) = .ok i →
    exec (.sw rt imm rs) s = .next t → step t = exec i t

/-! ### Program start and the end of a run -/

/-- R34: the state at reset, for any images that a launch accepts. The oracle's form is the model's
(log 13). -/
def Obligations.LaunchGivesTheResetState : Prop :=
  ∀ (l : Launch) (s : State), launch l = .next s →
    (∀ r, s.readReg r = if r = 28#5 then 0x10008000#32 else if r = 29#5 then 0x7FFFEFFC#32 else 0#32) ∧
    s.pc = 0x00400000#32 ∧ s.run = .running ∧ s.out = [] ∧ s.oracle = { known := l.answers, taken := 0 }

/-- R221: the memory at reset: each word of each image at its address, little-endian, and every other
address unmapped (D8, D10, D22; log 7, log 8). -/
def Obligations.LaunchPlacesExactlyTheImages : Prop :=
  ∀ l : Launch, l.wellFormed = true → ∃ s, launch l = .next s ∧
    (∀ k (h : k < l.text.length), s.mem.readWord (0x00400000#32 + BitVec.ofNat 32 (4 * k)) = .ok l.text[k]) ∧
    (∀ k (h : k < l.data.length), s.mem.readWord (l.dataBase + BitVec.ofNat 32 (4 * k)) = .ok l.data[k]) ∧
    ∀ a, s.mem.mapped a = true →
      (0x00400000 ≤ a.toNat ∧ a.toNat < 0x00400000 + 4 * l.text.length) ∨
      (l.dataBase.toNat ≤ a.toNat ∧ a.toNat < l.dataBase.toNat + 4 * l.data.length)

/-- R222 (D22, log 8): a launch whose images wrap past 2^32, or which fit but share a byte address, is
refused under its own name. -/
def Obligations.LaunchRefusesIllFormedImages : Prop :=
  ∀ l : Launch,
    (2 ^ 32 < 0x00400000 + 4 * l.text.length ∨ 2 ^ 32 < l.dataBase.toNat + 4 * l.data.length →
      launch l = .refused .imageWraps) ∧
    (0x00400000 + 4 * l.text.length ≤ 2 ^ 32 → l.dataBase.toNat + 4 * l.data.length ≤ 2 ^ 32 →
      (∃ a, 0x00400000 ≤ a ∧ a < 0x00400000 + 4 * l.text.length ∧ l.dataBase.toNat ≤ a ∧
        a < l.dataBase.toNat + 4 * l.data.length) → launch l = .refused .imagesOverlap)

/-- R112, R221: the reset state with both images empty takes the "dropped off bottom" path at its first
step, with success status. -/
def Obligations.EmptyProgramEndsWellAtOnce : Prop :=
  ∃ t, step State.reset = .next t ∧ HaltsOnly State.reset t .noMoreInstructions ∧
    exitStatus .noMoreInstructions = 0

/-- R28, R206: the exit status is 0 exactly for the two normal ends; for a fatal error it is some other
value, whatever the free value behind it (D16; log 15). -/
def Obligations.ExitStatusIsZeroExactlyForNormalEnds : Prop :=
  ∀ r : HaltReason, exitStatus r = 0 ↔ r.endsWell = true
end

