-- ==== Sys2Proof/Laws/Decode.lean ====
section
/-! SUPPORT. The value of a slice, the slices of the words the encoder makes, and what the decoder
answers in terms of opcode and funct. -/

namespace Sys2Proof

@[simp] theorem extract_toNat (l r : Nat) (w : Word) :
    (extract l r w).toNat = w.toNat / 2 ^ r % 2 ^ (l - r + 1) := by
  simp [extract]

/-- The value of an R-format word, which fits in 32 bits (R82). -/
theorem rFormat_toNat (rs rt rd : RegIdx) (unused : BitVec 5) {funct : Nat} (h : funct < 64) :
    (rFormat rs rt rd unused funct).toNat =
      rs.toNat * 2 ^ 21 + rt.toNat * 2 ^ 16 + rd.toNat * 2 ^ 11 + unused.toNat * 2 ^ 6 + funct := by
  have := rs.isLt; have := rt.isLt; have := rd.isLt; have := unused.isLt
  simp only [rFormat, BitVec.toNat_ofNat]
  omega

/-- The value of an I-format word (R83). -/
theorem iFormat_toNat {opcode : Nat} (h : opcode < 64) (rs rt : RegIdx) (imm : BitVec 16) :
    (iFormat opcode rs rt imm).toNat =
      opcode * 2 ^ 26 + rs.toNat * 2 ^ 21 + rt.toNat * 2 ^ 16 + imm.toNat := by
  have := rs.isLt; have := rt.isLt; have := imm.isLt
  simp only [iFormat, BitVec.toNat_ofNat]
  omega

/-- The value of a J word (R84). -/
theorem jFormat_toNat (target : BitVec 26) : (jFormat target).toNat = 2 * 2 ^ 26 + target.toNat := by
  have := target.isLt
  simp only [jFormat, BitVec.toNat_ofNat]
  omega

/-- The value of a SYSCALL word (R140). -/
theorem syscallWord_toNat (code : BitVec 20) : (syscallWord code).toNat = code.toNat * 2 ^ 6 + 12 := by
  have := code.isLt
  simp only [syscallWord, BitVec.toNat_ofNat]
  omega

/-- The slices of an R-format word are the fields it was made of. -/
theorem fieldsOf_rFormat (rs rt rd : RegIdx) (unused : BitVec 5) {funct : Nat} (h : funct < 64) :
    let f := fieldsOf (rFormat rs rt rd unused funct)
    f.opcode.toNat = 0 ∧ f.rs = rs ∧ f.rt = rt ∧ f.rd = rd ∧ f.unused = unused ∧ f.funct.toNat = funct := by
  have := rs.isLt; have := rt.isLt; have := rd.isLt; have := unused.isLt
  refine ⟨?_, ?_, ?_, ?_, ?_, ?_⟩
  case refine_1 | refine_6 => simp only [fieldsOf, extract_toNat, rFormat_toNat _ _ _ _ h]; omega
  all_goals
    apply BitVec.eq_of_toNat_eq
    simp only [fieldsOf, extract_toNat, rFormat_toNat _ _ _ _ h]
    omega

/-- The slices of an I-format word are the fields it was made of. -/
theorem fieldsOf_iFormat {opcode : Nat} (h : opcode < 64) (rs rt : RegIdx) (imm : BitVec 16) :
    let f := fieldsOf (iFormat opcode rs rt imm)
    f.opcode.toNat = opcode ∧ f.rs = rs ∧ f.rt = rt ∧ f.imm = imm := by
  have := rs.isLt; have := rt.isLt; have := imm.isLt
  refine ⟨?_, ?_, ?_, ?_⟩
  case refine_1 => simp only [fieldsOf, extract_toNat, iFormat_toNat h]; omega
  all_goals
    apply BitVec.eq_of_toNat_eq
    simp only [fieldsOf, extract_toNat, iFormat_toNat h]
    omega

/-- The slices of a J word are the fields it was made of. -/
theorem fieldsOf_jFormat (target : BitVec 26) :
    let f := fieldsOf (jFormat target)
    f.opcode.toNat = 2 ∧ f.target = target := by
  have := target.isLt
  refine ⟨?_, BitVec.eq_of_toNat_eq ?_⟩ <;>
    simp only [fieldsOf, extract_toNat, jFormat_toNat] <;> omega

/-- The slices of a SYSCALL word are opcode 0, funct 12 and the ignored bits. -/
theorem fieldsOf_syscallWord (code : BitVec 20) :
    let f := fieldsOf (syscallWord code)
    f.opcode.toNat = 0 ∧ f.funct.toNat = 12 ∧ f.code = code := by
  have := code.isLt
  refine ⟨?_, ?_, BitVec.eq_of_toNat_eq ?_⟩ <;>
    simp only [fieldsOf, extract_toNat, syscallWord_toNat] <;> omega

/-- The opcode as a number (R81). -/
theorem opcode_toNat (w : Word) : (fieldsOf w).opcode.toNat = w.toNat / 2 ^ 26 := by
  have := w.isLt
  simp only [fieldsOf, extract_toNat]
  omega

/-- The funct as a number (R81). -/
theorem funct_toNat (w : Word) : (fieldsOf w).funct.toNat = w.toNat % 2 ^ 6 := by
  simp only [fieldsOf, extract_toNat]
  omega

/-- A SYSCALL word is rebuilt from its ignored bits: the record of a fatal error is the fetched word
(log 10). -/
theorem syscallWord_code {w : Word} (hop : (fieldsOf w).opcode.toNat = 0)
    (hfn : (fieldsOf w).funct.toNat = 12) : syscallWord (fieldsOf w).code = w := by
  apply BitVec.eq_of_toNat_eq
  rw [opcode_toNat] at hop
  rw [funct_toNat] at hfn
  have := w.isLt
  simp only [syscallWord_toNat, fieldsOf, extract_toNat]
  omega

/-- Masking with `2^k - 1` shifted up keeps exactly the bits from `lo` to `lo + k - 1` (R86's masks). -/
theorem and_opcodeMask (w : Word) : (w &&& 0xFC000000#32).toNat = w.toNat / 2 ^ 26 * 2 ^ 26 := by
  have hw := w.isLt
  have h : (w &&& 0xFC000000#32).toNat = w.toNat &&& 0xFC000000 := by simp [BitVec.toNat_and]
  have hs : w.toNat &&& 0xFC000000 = (w.toNat >>> 26 &&& 63) <<< 26 := by
    apply Nat.eq_of_testBit_eq
    intro i
    have hc : (0xFC000000 : Nat) = 63 <<< 26 := rfl
    rw [hc]
    simp only [Nat.testBit_and, Nat.testBit_shiftLeft, Nat.testBit_shiftRight]
    by_cases hi : 26 ≤ i
    · have : 26 + (i - 26) = i := by omega
      simp [hi, this]
    · simp [hi]
  rw [h, hs, Nat.shiftLeft_eq, Nat.shiftRight_eq_div_pow]
  have h63 : w.toNat / 2 ^ 26 &&& 63 = w.toNat / 2 ^ 26 % 64 := Nat.and_two_pow_sub_one_eq_mod _ 6
  rw [h63]
  omega

/-- The same for the mask of the R-format rows: opcode and funct are kept, all else is cleared. -/
theorem and_functMask (w : Word) :
    (w &&& 0xFC00003F#32).toNat = w.toNat / 2 ^ 26 * 2 ^ 26 + w.toNat % 2 ^ 6 := by
  have hsplit : w &&& 0xFC00003F#32 = (w &&& 0xFC000000#32) ||| (w &&& 0x3F#32) := by
    rw [← BitVec.and_or_distrib_left]; rfl
  have hlow : (w &&& 0x3F#32).toNat = w.toNat % 2 ^ 6 := by
    rw [BitVec.toNat_and]; exact Nat.and_two_pow_sub_one_eq_mod _ 6
  rw [hsplit, BitVec.toNat_or, and_opcodeMask, hlow]
  have hlt : w.toNat % 2 ^ 6 < 2 ^ 26 := Nat.lt_of_lt_of_le (Nat.mod_lt _ (by decide)) (by decide)
  rw [Nat.mul_comm, ← Nat.two_pow_add_eq_or_of_lt hlt]

/-- Bit `k` of a slice is bit `r + k` of the word (R7, R110). -/
theorem extract_getLsbD {l r k : Nat} (w : Word) (h : k < l - r + 1) :
    (extract l r w).getLsbD k = w.getLsbD (r + k) := by
  simp only [extract, BitVec.getLsbD_ofNat, h, decide_true, Bool.true_and, Nat.testBit_div_two_pow,
    BitVec.testBit_toNat]
  rw [Nat.add_comm]

/-- Two words that agree under a mask agree on every slice the mask keeps (R89). -/
theorem extract_eq_of_and_eq {w w' m : Word} (h : w &&& m = w' &&& m) {l r : Nat}
    (hm : ∀ k < l - r + 1, m.getLsbD (r + k) = true) : extract l r w = extract l r w' := by
  apply BitVec.eq_of_getLsbD_eq
  intro k hk
  rw [extract_getLsbD _ hk, extract_getLsbD _ hk]
  have hbit := congrArg (fun x => x.getLsbD (r + k)) h
  simpa [hm k hk] using hbit

/-- What the decoder answers under opcode 0, by funct (R88). -/
theorem decode_rFormat_cases {w : Word} (h : w.toNat / 2 ^ 26 = 0) :
    let f := fieldsOf w
    (w.toNat % 2 ^ 6 = 32 ∧ decode w = .ok (.add f.rd f.rs f.rt f.unused)) ∨
    (w.toNat % 2 ^ 6 = 34 ∧ decode w = .ok (.sub f.rd f.rs f.rt f.unused)) ∨
    (w.toNat % 2 ^ 6 = 36 ∧ decode w = .ok (.and f.rd f.rs f.rt f.unused)) ∨
    (w.toNat % 2 ^ 6 = 37 ∧ decode w = .ok (.or f.rd f.rs f.rt f.unused)) ∨
    (w.toNat % 2 ^ 6 = 42 ∧ decode w = .ok (.slt f.rd f.rs f.rt f.unused)) ∨
    (w.toNat % 2 ^ 6 = 12 ∧ decode w = .ok (.syscall f.code)) ∨
    (w.toNat % 2 ^ 6 ∉ [12, 32, 34, 36, 37, 42] ∧ decode w = .error .invalidFunct) := by
  rw [← opcode_toNat] at h
  rw [← funct_toNat]
  simp only [decode, select, h, selectFunct]
  split <;> simp_all

/-- What the decoder answers under any other opcode (R87). -/
theorem decode_other_cases {w : Word} (h : w.toNat / 2 ^ 26 ≠ 0) :
    let f := fieldsOf w
    (w.toNat / 2 ^ 26 = 2 ∧ decode w = .ok (.j f.target)) ∨
    (w.toNat / 2 ^ 26 = 4 ∧ decode w = .ok (.beq f.rs f.rt f.imm)) ∨
    (w.toNat / 2 ^ 26 = 5 ∧ decode w = .ok (.bne f.rs f.rt f.imm)) ∨
    (w.toNat / 2 ^ 26 = 9 ∧ decode w = .ok (.addiu f.rt f.rs f.imm)) ∨
    (w.toNat / 2 ^ 26 = 12 ∧ decode w = .ok (.andi f.rt f.rs f.imm)) ∨
    (w.toNat / 2 ^ 26 = 13 ∧ decode w = .ok (.ori f.rt f.rs f.imm)) ∨
    (w.toNat / 2 ^ 26 = 15 ∧ decode w = .ok (.lui f.rt f.imm f.rs)) ∨
    (w.toNat / 2 ^ 26 = 35 ∧ decode w = .ok (.lw f.rt f.imm f.rs)) ∨
    (w.toNat / 2 ^ 26 = 43 ∧ decode w = .ok (.sw f.rt f.imm f.rs)) ∨
    (w.toNat / 2 ^ 26 ∉ [0, 2, 4, 5, 9, 12, 13, 15, 35, 43] ∧ decode w = .error .invalidOpcode) := by
  rw [← opcode_toNat] at h ⊢
  unfold decode select
  split <;> simp_all

end Sys2Proof
end

