-- ==== Sys2Proof/Laws/Memory.lean ====
section
/-! SUPPORT. The laws of the byte memory: a read after a write, the canonical form kept by every
operation, and the little-endian word round trip. -/

namespace Sys2Proof.Machine

namespace Memory

/-- Every listed key is at least `n`. -/
abbrev KeysFrom (n : Nat) (m : Memory) : Prop := ∀ c ∈ m, n ≤ c.1

theorem wf_cons {k : Nat} {b : Byte} {m : Memory} :
    wf ((k, b) :: m) = true ↔ k < 2 ^ 32 ∧ KeysFrom (k + 1) m ∧ wf m = true := by
  induction m generalizing k b with
  | nil => simp [wf]
  | cons c rest ih =>
    obtain ⟨k', b'⟩ := c
    have hstep : wf ((k, b) :: (k', b') :: rest) = true ↔ k < k' ∧ wf ((k', b') :: rest) = true := by
      simp [wf]
    rw [hstep, ih]
    constructor
    · rintro ⟨hk, hk', hfrom, hwf⟩
      refine ⟨by omega, ?_, hk', hfrom, hwf⟩
      intro c hc
      rcases List.mem_cons.mp hc with rfl | hc
      · exact hk
      · exact Nat.le_trans (by omega) (hfrom c hc)
    · rintro ⟨_, hfrom, hk', hfrom', hwf⟩
      exact ⟨hfrom (k', b') (List.mem_cons_self), hk', hfrom', hwf⟩

theorem lookup_insert (m : Memory) (a c : Nat) (b : Byte) :
    (m.insert a b).lookup c = if c = a then some b else m.lookup c := by
  induction m with
  | nil => simp [insert, lookup]
  | cons p rest ih =>
    obtain ⟨k, v⟩ := p
    simp only [insert]
    split
    · simp [lookup]
    · split
      · subst_vars; by_cases h : c = k <;> simp [lookup, h]
      · by_cases h : c = k
        · subst h
          have : ¬ c = a := fun e => by simp_all
          simp [lookup, this]
        · simp [lookup, h, ih]

theorem mem_insert {m : Memory} {a : Nat} {b : Byte} {c : Host.Cell} (h : c ∈ m.insert a b) :
    c = (a, b) ∨ c ∈ m := by
  induction m with
  | nil => simpa [insert] using h
  | cons p rest ih =>
    obtain ⟨k, v⟩ := p
    simp only [insert] at h
    split at h
    · simpa using h
    · split at h
      · rcases List.mem_cons.mp h with rfl | h
        · exact .inl rfl
        · exact .inr (List.mem_cons_of_mem _ h)
      · rcases List.mem_cons.mp h with rfl | h
        · exact .inr List.mem_cons_self
        · exact (ih h).imp_right (List.mem_cons_of_mem _)

/-- Writing a byte below `2^32` keeps the canonical form. -/
theorem wf_insert {m : Memory} {a : Nat} {b : Byte} (ha : a < 2 ^ 32) (h : m.wf = true) :
    (m.insert a b).wf = true := by
  induction m with
  | nil => simpa [insert, wf] using ha
  | cons p rest ih =>
    obtain ⟨k, v⟩ := p
    obtain ⟨hk, hfrom, hwf⟩ := wf_cons.mp h
    simp only [insert]
    split
    · refine wf_cons.mpr ⟨ha, ?_, h⟩
      intro c hc
      rcases List.mem_cons.mp hc with rfl | hc
      · assumption
      · exact Nat.le_trans (by omega) (hfrom c hc)
    · split
      · subst_vars; exact wf_cons.mpr ⟨hk, hfrom, hwf⟩
      · refine wf_cons.mpr ⟨hk, ?_, ih hwf⟩
        intro c hc
        rcases mem_insert hc with rfl | hc
        · show k + 1 ≤ a; omega
        · exact hfrom c hc

theorem readByte_writeByte (m : Memory) (a c : Word) (b : Byte) :
    (m.writeByte a b).readByte c = if c = a then some b else m.readByte c := by
  simp only [readByte, writeByte, lookup_insert, BitVec.toNat_inj]

@[simp] theorem readByte_writeByte_self (m : Memory) (a : Word) (b : Byte) :
    (m.writeByte a b).readByte a = some b := by
  simp [readByte_writeByte]

theorem readByte_writeByte_of_ne (m : Memory) {a c : Word} (h : c ≠ a) (b : Byte) :
    (m.writeByte a b).readByte c = m.readByte c := by
  simp [readByte_writeByte, h]

theorem wf_writeByte {m : Memory} (a : Word) (b : Byte) (h : m.wf = true) :
    (m.writeByte a b).wf = true :=
  wf_insert a.isLt h

theorem wf_writeWord {m : Memory} (a v : Word) (h : m.wf = true) : (m.writeWord a v).wf = true :=
  wf_writeByte _ _ (wf_writeByte _ _ (wf_writeByte _ _ (wf_writeByte _ _ h)))

theorem wf_storeWords {m : Memory} (a : Word) (ws : List Word) (h : m.wf = true) :
    (m.storeWords a ws).wf = true := by
  induction ws generalizing m a with
  | nil => exact h
  | cons w ws ih => exact ih _ (wf_writeWord a w h)

/-- The four byte addresses of a word access are different, also across the wrap (R57). -/
theorem word_addresses_ne (a : Word) :
    a ≠ a + 1#32 ∧ a ≠ a + 2#32 ∧ a ≠ a + 3#32 ∧ a + 1#32 ≠ a + 2#32 ∧ a + 1#32 ≠ a + 3#32 ∧
      a + 2#32 ≠ a + 3#32 := by
  refine ⟨?_, ?_, ?_, ?_, ?_, ?_⟩ <;> bv_omega

/-- What a byte reads as after a word store (R51). -/
theorem readByte_writeWord (m : Memory) (a v c : Word) :
    (m.writeWord a v).readByte c =
      if c = a + 3#32 then some (byteOf v 3) else if c = a + 2#32 then some (byteOf v 2)
      else if c = a + 1#32 then some (byteOf v 1) else if c = a then some (byteOf v 0)
      else m.readByte c := by
  simp only [writeWord, readByte_writeByte]

end Memory

/-- Taking a word apart into bytes and putting it together gives it back (R54). -/
theorem wordOfBytes_byteOf (v : Word) :
    wordOfBytes (byteOf v 0) (byteOf v 1) (byteOf v 2) (byteOf v 3) = v := by
  apply BitVec.eq_of_toNat_eq
  have := v.isLt
  simp only [wordOfBytes, byteOf, BitVec.toNat_ofNat]
  omega

namespace Memory

theorem mapped_eq_true {m : Memory} {a : Word} : m.mapped a = true ↔ ∃ b, m.readByte a = some b :=
  Option.isSome_iff_exists

theorem mapped_eq_false {m : Memory} {a : Word} : m.mapped a = false ↔ m.readByte a = none := by
  simp [mapped]

/-- The two outcomes of `MemRead(a, 4)` (R50, R52). -/
theorem readWord_ok_iff {m : Memory} {a w : Word} :
    m.readWord a = .ok w ↔ ∃ b0 b1 b2 b3, m.readByte a = some b0 ∧ m.readByte (a + 1#32) = some b1 ∧
      m.readByte (a + 2#32) = some b2 ∧ m.readByte (a + 3#32) = some b3 ∧ wordOfBytes b0 b1 b2 b3 = w := by
  constructor
  · intro h
    unfold readWord at h
    split at h
    · cases h
    · split at h
      · cases h
      · split at h
        · cases h
        · split at h
          · cases h
          · injection h with h
            exact ⟨_, _, _, _, ‹_›, ‹_›, ‹_›, ‹_›, h⟩
  · rintro ⟨b0, b1, b2, b3, h0, h1, h2, h3, rfl⟩
    simp [readWord, h0, h1, h2, h3]

/-- The address a failing `MemRead(a, 4)` names is unmapped, and every byte before it is mapped
(R52). -/
theorem readWord_error_iff {m : Memory} {a b : Word} :
    m.readWord a = .error b ↔
      (b = a ∧ m.readByte a = none) ∨
      (b = a + 1#32 ∧ m.mapped a = true ∧ m.readByte (a + 1#32) = none) ∨
      (b = a + 2#32 ∧ m.mapped a = true ∧ m.mapped (a + 1#32) = true ∧ m.readByte (a + 2#32) = none) ∨
      (b = a + 3#32 ∧ m.mapped a = true ∧ m.mapped (a + 1#32) = true ∧ m.mapped (a + 2#32) = true ∧
        m.readByte (a + 3#32) = none) := by
  unfold readWord mapped
  rcases m.readByte a with _ | b0
  · simp [eq_comm (a := b)]
  rcases m.readByte (a + 1#32) with _ | b1
  · simp [eq_comm (a := b)]
  rcases m.readByte (a + 2#32) with _ | b2
  · simp [eq_comm (a := b)]
  rcases m.readByte (a + 3#32) with _ | b3 <;> simp [eq_comm (a := b)]

/-- A word stored and then read at the same address (R54). -/
theorem readWord_writeWord_self (m : Memory) (a v : Word) : (m.writeWord a v).readWord a = .ok v := by
  obtain ⟨h01, h02, h03, h12, h13, h23⟩ := word_addresses_ne a
  refine readWord_ok_iff.mpr ⟨byteOf v 0, byteOf v 1, byteOf v 2, byteOf v 3, ?_, ?_, ?_, ?_,
    wordOfBytes_byteOf v⟩ <;> rw [readByte_writeWord]
  · rw [if_neg h03, if_neg h02, if_neg h01, if_pos rfl]
  · rw [if_neg h13, if_neg h12, if_pos rfl]
  · rw [if_neg h23, if_pos rfl]
  · rw [if_pos rfl]

/-- A store never unmaps a byte (R29, R51). -/
theorem mapped_writeWord {m : Memory} {c : Word} (a v : Word) (h : m.mapped c = true) :
    (m.writeWord a v).mapped c = true := by
  unfold mapped at *
  rw [readByte_writeWord]
  split_ifs <;> simp_all

/-- Word reads agree where the four bytes agree. -/
theorem readWord_congr {m m' : Memory} {a : Word} (h0 : m.readByte a = m'.readByte a)
    (h1 : m.readByte (a + 1#32) = m'.readByte (a + 1#32))
    (h2 : m.readByte (a + 2#32) = m'.readByte (a + 2#32))
    (h3 : m.readByte (a + 3#32) = m'.readByte (a + 3#32)) : m.readWord a = m'.readWord a := by
  simp only [readWord, h0, h1, h2, h3]

/-- The first unmapped byte of a word access, by its offset, is the one the failing read names (R52). -/
theorem readWord_error_of_offset {m : Memory} {a : Word} {k : Nat} (hk : k < 4)
    (hbefore : ∀ j < k, m.mapped (a + BitVec.ofNat 32 j) = true)
    (hat : m.mapped (a + BitVec.ofNat 32 k) = false) :
    m.readWord a = .error (a + BitVec.ofNat 32 k) := by
  rw [mapped_eq_false] at hat
  apply readWord_error_iff.mpr
  obtain rfl | rfl | rfl | rfl : k = 0 ∨ k = 1 ∨ k = 2 ∨ k = 3 := by omega
  · exact .inl (by simpa using hat)
  · exact .inr (.inl ⟨rfl, by simpa using hbefore 0 (by omega), hat⟩)
  · exact .inr (.inr (.inl ⟨rfl, by simpa using hbefore 0 (by omega), hbefore 1 (by omega), hat⟩))
  · exact .inr (.inr (.inr ⟨rfl, by simpa using hbefore 0 (by omega), hbefore 1 (by omega),
      hbefore 2 (by omega), hat⟩))

/-- The address a failing word read names is unmapped (R52). -/
theorem readByte_of_readWord_error {m : Memory} {a b : Word} (h : m.readWord a = .error b) :
    m.readByte b = none := by
  rcases readWord_error_iff.mp h with ⟨rfl, h⟩ | ⟨rfl, -, h⟩ | ⟨rfl, -, -, h⟩ | ⟨rfl, -, -, -, h⟩ <;> exact h

/-- A byte outside an image that fits is not touched when the image is placed (R221). -/
theorem readByte_storeWords_outside {ws : List Word} {m : Memory} {a c : Word}
    (hfit : a.toNat + 4 * ws.length ≤ 2 ^ 32)
    (hc : c.toNat < a.toNat ∨ a.toNat + 4 * ws.length ≤ c.toNat) :
    (m.storeWords a ws).readByte c = m.readByte c := by
  induction ws generalizing m a with
  | nil => rfl
  | cons w ws ih =>
    simp only [List.length_cons] at hfit hc
    have hw : (m.writeWord a w).readByte c = m.readByte c := by
      rw [readByte_writeWord, if_neg, if_neg, if_neg, if_neg] <;> bv_omega
    cases ws with
    | nil => exact hw
    | cons w' ws =>
      simp only [List.length_cons] at hfit hc ih
      have ha : (a + 4#32).toNat = a.toNat + 4 := by bv_omega
      exact (ih (m := m.writeWord a w) (a := a + 4#32) (by omega) (by omega)).trans hw

/-- Word `k` of an image that fits stands at its address, little-endian (R221). -/
theorem readWord_storeWords {ws : List Word} {m : Memory} {a : Word}
    (hfit : a.toNat + 4 * ws.length ≤ 2 ^ 32) {k : Nat} (hk : k < ws.length) :
    (m.storeWords a ws).readWord (a + BitVec.ofNat 32 (4 * k)) = .ok ws[k] := by
  induction ws generalizing m a k with
  | nil => simp at hk
  | cons w ws ih =>
    simp only [List.length_cons] at hfit hk
    cases k with
    | zero =>
      have hself := readWord_writeWord_self m a w
      have ha0 : a + BitVec.ofNat 32 (4 * 0) = a := by simp
      rw [ha0]
      cases ws with
      | nil => exact hself
      | cons w' ws =>
        simp only [List.length_cons] at hfit
        refine (readWord_congr (m' := m.writeWord a w) ?_ ?_ ?_ ?_).trans hself <;>
          refine readByte_storeWords_outside (ws := w' :: ws) (m := m.writeWord a w) (a := a + 4#32) ?_ ?_ <;>
          simp only [List.length_cons] <;> bv_omega
    | succ k =>
      have hk' : k < ws.length := by omega
      have ha : (a + 4#32).toNat = a.toNat + 4 := by bv_omega
      have hadd : a + BitVec.ofNat 32 (4 * (k + 1)) = a + 4#32 + BitVec.ofNat 32 (4 * k) := by
        rw [BitVec.add_assoc]
        congr 1
        apply BitVec.eq_of_toNat_eq
        simp
        omega
      rw [hadd]
      exact ih (m := m.writeWord a w) (a := a + 4#32) (by omega) hk'

end Memory

/-- A launch that is given a meaning fits, is disjoint, and starts in R34's state with R221's memory. -/
theorem launch_next {l : Launch} {s : State} (h : launch l = .next s) :
    l.imagesFit = true ∧ l.imagesDisjoint = true ∧
      s = { State.reset with mem := imageMemory l, oracle := { known := l.answers, taken := 0 } } := by
  unfold launch at h
  split at h
  · split at h
    · cases h; exact ⟨‹_›, ‹_›, rfl⟩
    · cases h
  · cases h

end Sys2Proof.Machine
end

