-- ==== Sys2Proof/Laws/State.lean ====
section
/-! SUPPORT. One lemma per field per update, so that no later proof unfolds a record update; and what a
register reads as after each update. -/

namespace Sys2Proof.Machine

namespace State

variable (s : State)

section writeReg
variable (i : RegIdx) (v : Word)
@[simp] theorem writeReg_pc : (s.writeReg i v).pc = s.pc := rfl
@[simp] theorem writeReg_mem : (s.writeReg i v).mem = s.mem := rfl
@[simp] theorem writeReg_run : (s.writeReg i v).run = s.run := rfl
@[simp] theorem writeReg_out : (s.writeReg i v).out = s.out := rfl
@[simp] theorem writeReg_oracle : (s.writeReg i v).oracle = s.oracle := rfl
end writeReg

section jumpTo
variable (t : Word)
@[simp] theorem jumpTo_x : (s.jumpTo t).x = s.x := rfl
@[simp] theorem jumpTo_pc : (s.jumpTo t).pc = t := rfl
@[simp] theorem jumpTo_mem : (s.jumpTo t).mem = s.mem := rfl
@[simp] theorem jumpTo_run : (s.jumpTo t).run = s.run := rfl
@[simp] theorem jumpTo_out : (s.jumpTo t).out = s.out := rfl
@[simp] theorem jumpTo_oracle : (s.jumpTo t).oracle = s.oracle := rfl
@[simp] theorem jumpTo_readReg (i : RegIdx) : (s.jumpTo t).readReg i = s.readReg i := rfl
end jumpTo

@[simp] theorem advance_x : s.advance.x = s.x := rfl
@[simp] theorem advance_pc : s.advance.pc = s.pc + 4#32 := rfl
@[simp] theorem advance_mem : s.advance.mem = s.mem := rfl
@[simp] theorem advance_run : s.advance.run = s.run := rfl
@[simp] theorem advance_out : s.advance.out = s.out := rfl
@[simp] theorem advance_oracle : s.advance.oracle = s.oracle := rfl
@[simp] theorem advance_readReg (i : RegIdx) : s.advance.readReg i = s.readReg i := rfl

section setMem
variable (m : Memory)
@[simp] theorem setMem_x : (s.setMem m).x = s.x := rfl
@[simp] theorem setMem_pc : (s.setMem m).pc = s.pc := rfl
@[simp] theorem setMem_mem : (s.setMem m).mem = m := rfl
@[simp] theorem setMem_run : (s.setMem m).run = s.run := rfl
@[simp] theorem setMem_out : (s.setMem m).out = s.out := rfl
@[simp] theorem setMem_oracle : (s.setMem m).oracle = s.oracle := rfl
@[simp] theorem setMem_readReg (i : RegIdx) : (s.setMem m).readReg i = s.readReg i := rfl
end setMem

section emit
variable (b : List Byte)
@[simp] theorem emit_x : (s.emit b).x = s.x := rfl
@[simp] theorem emit_pc : (s.emit b).pc = s.pc := rfl
@[simp] theorem emit_mem : (s.emit b).mem = s.mem := rfl
@[simp] theorem emit_run : (s.emit b).run = s.run := rfl
@[simp] theorem emit_out : (s.emit b).out = s.out ++ b := rfl
@[simp] theorem emit_oracle : (s.emit b).oracle = s.oracle := rfl
@[simp] theorem emit_readReg (i : RegIdx) : (s.emit b).readReg i = s.readReg i := rfl
end emit

@[simp] theorem takeAnswer_x : s.takeAnswer.x = s.x := rfl
@[simp] theorem takeAnswer_pc : s.takeAnswer.pc = s.pc := rfl
@[simp] theorem takeAnswer_mem : s.takeAnswer.mem = s.mem := rfl
@[simp] theorem takeAnswer_run : s.takeAnswer.run = s.run := rfl
@[simp] theorem takeAnswer_out : s.takeAnswer.out = s.out := rfl
@[simp] theorem takeAnswer_known : s.takeAnswer.oracle.known = s.oracle.known.tail := rfl
@[simp] theorem takeAnswer_taken : s.takeAnswer.oracle.taken = s.oracle.taken + 1 := rfl
@[simp] theorem takeAnswer_readReg (i : RegIdx) : s.takeAnswer.readReg i = s.readReg i := rfl

section enterHalted
variable (r : HaltReason)
@[simp] theorem enterHalted_x : (s.enterHalted r).x = s.x := rfl
@[simp] theorem enterHalted_pc : (s.enterHalted r).pc = s.pc := rfl
@[simp] theorem enterHalted_mem : (s.enterHalted r).mem = s.mem := rfl
@[simp] theorem enterHalted_run : (s.enterHalted r).run = .halted r := rfl
@[simp] theorem enterHalted_out : (s.enterHalted r).out = s.out := rfl
@[simp] theorem enterHalted_oracle : (s.enterHalted r).oracle = s.oracle := rfl
@[simp] theorem enterHalted_readReg (i : RegIdx) : (s.enterHalted r).readReg i = s.readReg i := rfl
end enterHalted

section raise
variable (e : FatalError)
@[simp] theorem raise_x : (s.raise e).x = s.x := rfl
@[simp] theorem raise_pc : (s.raise e).pc = s.pc := rfl
@[simp] theorem raise_mem : (s.raise e).mem = s.mem := rfl
@[simp] theorem raise_run : (s.raise e).run = .halted (.fatal e) := rfl
@[simp] theorem raise_out : (s.raise e).out = s.out := rfl
@[simp] theorem raise_oracle : (s.raise e).oracle = s.oracle := rfl
@[simp] theorem raise_readReg (i : RegIdx) : (s.raise e).readReg i = s.readReg i := rfl
end raise

section retire
variable (d : RegIdx) (v : Word)
@[simp] theorem retire_pc : (s.retire d v).pc = s.pc + 4#32 := rfl
@[simp] theorem retire_mem : (s.retire d v).mem = s.mem := rfl
@[simp] theorem retire_run : (s.retire d v).run = s.run := rfl
@[simp] theorem retire_out : (s.retire d v).out = s.out := rfl
@[simp] theorem retire_oracle : (s.retire d v).oracle = s.oracle := rfl
end retire

/-- The register file's read-after-write law (R21, R23): the written register holds the value, register 0
like any other, and every other register is untouched. -/
theorem readReg_writeReg (i j : RegIdx) (v : Word) :
    (s.writeReg i v).readReg j = if j = i then v else s.readReg j := by
  have hij : i.toNat = j.toNat ↔ j = i := by
    rw [← BitVec.toNat_inj]; exact eq_comm
  simp only [readReg, writeReg, Vector.getElem_set, hij]

@[simp] theorem readReg_writeReg_self (i : RegIdx) (v : Word) : (s.writeReg i v).readReg i = v := by
  simp [readReg_writeReg]

theorem readReg_writeReg_of_ne {i j : RegIdx} (h : j ≠ i) (v : Word) :
    (s.writeReg i v).readReg j = s.readReg j := by
  simp [readReg_writeReg, h]

theorem readReg_retire (i j : RegIdx) (v : Word) :
    (s.retire i v).readReg j = if j = i then v else s.readReg j :=
  s.readReg_writeReg i j v

@[simp] theorem readReg_retire_self (i : RegIdx) (v : Word) : (s.retire i v).readReg i = v :=
  s.readReg_writeReg_self i v

theorem readReg_retire_of_ne {i j : RegIdx} (h : j ≠ i) (v : Word) :
    (s.retire i v).readReg j = s.readReg j :=
  s.readReg_writeReg_of_ne h v

end State

end Sys2Proof.Machine
end

