-- ==== Sys2Proof/Laws/Ops.lean ====
section
/-! SUPPORT. One lemma per shared operation that says once everything it can do: the fetch, the step,
the string scan, the two shapes of the ALU instructions and the branch. -/

namespace Sys2Proof.Machine

/-- The ALU's `eq` bit is 1 exactly on equal operands (R120). -/
theorem aluEq_eq_one {a b : Word} : (alu .eq a b == 1#32) = decide (a = b) := by
  by_cases h : a = b <;> simp [alu, aluEq, h]

/-- The ALU's `eq` bit is 0 exactly on different operands (R120). -/
theorem aluEq_eq_zero {a b : Word} : (alu .eq a b == 0#32) = decide (a ≠ b) := by
  by_cases h : a = b <;> simp [alu, aluEq, h]

/-- A branch goes to its target or to the next instruction, and changes nothing but the pc. -/
theorem branchIf_eq (taken : Bool) (imm : BitVec 16) (s : State) :
    branchIf taken imm s = s.jumpTo (if taken then s.branchTarget imm else s.pc + 4#32) := by
  cases taken <;> rfl

/-- Everything the fetch and the decode can answer (R113, steps 1 to 3). -/
theorem fetchDecode_cases (s : State) :
    (s.mem.mapped s.pc = false ∧ fetchDecode s = .ended (s.enterHalted .noMoreInstructions)) ∨
    (∃ b, s.mem.mapped s.pc = true ∧ s.mem.readWord s.pc = .error b ∧
      fetchDecode s = .ended (s.raise (.unmappedAccess b s.pc))) ∨
    (∃ w e, s.mem.readWord s.pc = .ok w ∧ decode w = .error e ∧
      fetchDecode s = .ended (s.raise (fatalOfDecodeError e w s.pc))) ∨
    (∃ w i, s.mem.readWord s.pc = .ok w ∧ decode w = .ok i ∧ fetchDecode s = .instr i) := by
  unfold fetchDecode
  cases hm : s.mem.mapped s.pc with
  | false => exact .inl ⟨rfl, by simp⟩
  | true =>
    cases hw : s.mem.readWord s.pc with
    | error b => exact .inr (.inl ⟨b, rfl, rfl, by simp⟩)
    | ok w =>
      cases hd : decode w with
      | error e => exact .inr (.inr (.inl ⟨w, e, rfl, hd, by simp [decodeFetched, hd]⟩))
      | ok i => exact .inr (.inr (.inr ⟨w, i, rfl, hd, by simp [decodeFetched, hd]⟩))

/-- A word readable at the pc is fetched (R53). -/
theorem fetchDecode_of_readWord {s : State} {w : Word} (h : s.mem.readWord s.pc = .ok w) :
    fetchDecode s = decodeFetched w s := by
  obtain ⟨b0, _, _, _, h0, -⟩ := Memory.readWord_ok_iff.mp h
  simp [fetchDecode, Memory.mapped, h0, h]

/-- Everything a step can be: a halted machine's fault, an end of the run at fetch or decode, or the
execution of the decoded instruction (R113). -/
theorem step_cases (s : State) :
    (∃ r, s.run = .halted r ∧ step s = .fault (.halted r)) ∨
    (s.run = .running ∧ s.mem.mapped s.pc = false ∧
      step s = .next (s.enterHalted .noMoreInstructions)) ∨
    (∃ b, s.run = .running ∧ s.mem.mapped s.pc = true ∧ s.mem.readWord s.pc = .error b ∧
      step s = .next (s.raise (.unmappedAccess b s.pc))) ∨
    (∃ w e, s.run = .running ∧ s.mem.readWord s.pc = .ok w ∧ decode w = .error e ∧
      step s = .next (s.raise (fatalOfDecodeError e w s.pc))) ∨
    (∃ w i, s.run = .running ∧ s.mem.readWord s.pc = .ok w ∧ decode w = .ok i ∧ step s = exec i s) := by
  cases hr : s.run with
  | halted r => exact .inl ⟨r, rfl, by simp [step, hr]⟩
  | running =>
    rcases fetchDecode_cases s with ⟨hm, hf⟩ | ⟨b, hm, hw, hf⟩ | ⟨w, e, hw, hd, hf⟩ | ⟨w, i, hw, hd, hf⟩
    · exact .inr (.inl ⟨rfl, hm, by simp [step, hr, hf]⟩)
    · exact .inr (.inr (.inl ⟨b, rfl, hm, hw, by simp [step, hr, hf]⟩))
    · exact .inr (.inr (.inr (.inl ⟨w, e, rfl, hw, hd, by simp [step, hr, hf]⟩)))
    · exact .inr (.inr (.inr (.inr ⟨w, i, rfl, hw, hd, by simp [step, hr, hf]⟩)))

/-- One turn of the loop of R143. -/
theorem scanString_succ (m : Memory) (fuel : Nat) (a : Word) :
    scanString m (fuel + 1) a =
      match m.readByte a with
      | none => .unmapped [] a
      | some b => if b = 0#8 then .terminated [] else (scanString m fuel (a + 1#32)).prepend b :=
  rfl

/-- The address at which a scan stops is unmapped (R143, R52). -/
theorem scanString_unmapped {m : Memory} {fuel : Nat} {a addr : Word} {bytes : List Byte}
    (h : scanString m fuel a = .unmapped bytes addr) : m.readByte addr = none := by
  induction fuel generalizing a bytes with
  | zero => cases h
  | succ fuel ih =>
    rw [scanString_succ] at h
    split at h
    · next hn => injection h with _ h; exact h ▸ hn
    · split at h
      · cases h
      · cases hs : scanString m fuel (a + 1#32) with
        | terminated bs => rw [hs] at h; cases h
        | endless => rw [hs] at h; cases h
        | unmapped bs ad =>
          rw [hs] at h
          injection h with _ h
          exact ih (h ▸ hs)

/-- Everything SYSCALL can do, service by service (R140 to R146). -/
theorem execSyscall_cases (code : BitVec 20) (s : State) :
    (s.readReg v0Idx = 1#32 ∧ execSyscall code s = printInteger s) ∨
    (s.readReg v0Idx = 4#32 ∧ execSyscall code s = printString s) ∨
    (s.readReg v0Idx = 5#32 ∧ execSyscall code s = readInteger (syscallWord code) s) ∨
    (s.readReg v0Idx = 10#32 ∧ execSyscall code s = exitRun s) ∨
    (s.readReg v0Idx ≠ 1#32 ∧ s.readReg v0Idx ≠ 4#32 ∧ s.readReg v0Idx ≠ 5#32 ∧
      s.readReg v0Idx ≠ 10#32 ∧ execSyscall code s = invalidService (syscallWord code) s) := by
  have hn : ∀ k : Nat, k < 2 ^ 32 → ((s.readReg v0Idx).toNat = k ↔ s.readReg v0Idx = BitVec.ofNat 32 k) := by
    intro k hk
    rw [← BitVec.toNat_inj, BitVec.toNat_ofNat, Nat.mod_eq_of_lt hk]
  unfold execSyscall
  split
  · next h => exact .inl ⟨(hn 1 (by decide)).mp h, rfl⟩
  · next h => exact .inr (.inl ⟨(hn 4 (by decide)).mp h, rfl⟩)
  · next h => exact .inr (.inr (.inl ⟨(hn 5 (by decide)).mp h, rfl⟩))
  · next h => exact .inr (.inr (.inr (.inl ⟨(hn 10 (by decide)).mp h, rfl⟩)))
  · next h1 h4 h5 h10 =>
    refine .inr (.inr (.inr (.inr ⟨fun h => h1 ?_, fun h => h4 ?_, fun h => h5 ?_, fun h => h10 ?_, rfl⟩)))
      <;> simp [h]

/-- A sign-extended immediate as the wrapped integer it stands for (R8). -/
theorem sext_eq_ofInt (imm : BitVec 16) : sext imm = BitVec.ofInt 32 imm.toInt := by
  apply BitVec.eq_of_toInt_eq
  have hlt := imm.toInt_lt
  have hle := imm.le_toInt
  rw [sext, BitVec.toInt_signExtend_of_le (by omega), BitVec.toInt_ofInt, Int.bmod_eq_of_le] <;> omega

/-- The effective address as an integer sum modulo 2^32 (R57). -/
theorem effectiveAddress_eq_ofInt (s : State) (rs : RegIdx) (imm : BitVec 16) :
    s.effectiveAddress rs imm = BitVec.ofInt 32 ((s.readReg rs).toNat + imm.toInt) := by
  simp only [State.effectiveAddress, alu, aluAdd, sext_eq_ofInt, BitVec.ofInt_add]
  simp

/-- The branch target as an integer sum modulo 2^32 (R26). -/
theorem branchTarget_eq_ofInt (s : State) (imm : BitVec 16) :
    s.branchTarget imm = BitVec.ofInt 32 (s.pc.toNat + 4 + 4 * imm.toInt) := by
  have hdisp : BitVec.ofInt 32 imm.toInt <<< 2 = BitVec.ofInt 32 (4 * imm.toInt) := by
    rw [BitVec.shiftLeft_eq_mul_twoPow, Int.mul_comm, BitVec.ofInt_mul]; rfl
  have hpc : s.pc + 4#32 = BitVec.ofInt 32 (s.pc.toNat + 4) := by
    rw [BitVec.ofInt_add]; simp
  simp only [State.branchTarget, branchDisplacement, alu, aluAdd, sext_eq_ofInt, hdisp, hpc,
    ← BitVec.ofInt_add]

/-- The jump target as a number: no bit is lost (R160). -/
theorem jumpTarget_toNat (target : BitVec 26) : (jumpTarget target).toNat = 4 * target.toNat := by
  have := target.isLt
  simp [jumpTarget, Nat.shiftLeft_eq]
  omega

/-- A scan over bytes that are mapped and not zero goes on after them (R143). -/
theorem scanString_append {m : Memory} {bytes : List Byte} {a : Word} (fuel : Nat)
    (h : ∀ k (hk : k < bytes.length), bytes[k] ≠ 0#8 ∧ m.readByte (a + BitVec.ofNat 32 k) = some bytes[k]) :
    scanString m (bytes.length + fuel) a =
      bytes.foldr Scan.prepend (scanString m fuel (a + BitVec.ofNat 32 bytes.length)) := by
  induction bytes generalizing a with
  | nil => simp
  | cons b bytes ih =>
    have hnext : ∀ k, a + BitVec.ofNat 32 (k + 1) = a + 1#32 + BitVec.ofNat 32 k := by
      intro k
      rw [BitVec.add_assoc]
      congr 1
      apply BitVec.eq_of_toNat_eq
      simp
      omega
    obtain ⟨hb, hread⟩ := h 0 (by simp)
    have hread' : m.readByte a = some b := by simpa using hread
    have hlen : (b :: bytes).length + fuel = bytes.length + fuel + 1 := by simp; omega
    rw [hlen, scanString_succ, hread', List.length_cons, hnext bytes.length]
    simp only [List.getElem_cons_zero] at hb
    simp only [hb, if_false, List.foldr]
    rw [ih]
    intro k hk
    have := h (k + 1) (by simpa using hk)
    rw [hnext k] at this
    simpa using this

theorem foldr_prepend_terminated (bytes rest : List Byte) :
    bytes.foldr Scan.prepend (Scan.terminated rest) = Scan.terminated (bytes ++ rest) := by
  induction bytes with
  | nil => rfl
  | cons b bytes ih => simp [ih, Scan.prepend]

theorem foldr_prepend_unmapped (bytes rest : List Byte) (addr : Word) :
    bytes.foldr Scan.prepend (Scan.unmapped rest addr) = Scan.unmapped (bytes ++ rest) addr := by
  induction bytes with
  | nil => rfl
  | cons b bytes ih => simp [ih, Scan.prepend]

end Sys2Proof.Machine
end

