-- ==== Sys2Proof/Laws/Exec.lean ====
section
/-! SUPPORT. Inversion of `exec`: everything an instruction, and everything a system call, can do when it
answers a next state. Every claim about all instructions is a case analysis of these two. -/

namespace Sys2Proof.Machine

/-- Everything an instruction without a system call can do when it answers a next state (R24, R26). -/
theorem exec_cases {i : Instr} {s t : State} (hi : ∀ code, i ≠ .syscall code) (h : exec i s = .next t) :
    (∃ d v, destination i = some d ∧ t = s.retire d v) ∨
    (∃ rt imm rs b, i = .lw rt imm rs ∧ s.mem.readWord (s.effectiveAddress rs imm) = .error b ∧
      t = s.raise (.unmappedAccess b s.pc)) ∨
    (∃ rt imm rs, i = .sw rt imm rs ∧
      t = (s.setMem (s.mem.writeWord (s.effectiveAddress rs imm) (s.readReg rt))).advance) ∨
    (∃ target, i = .j target ∧ t = s.jumpTo (jumpTarget target)) ∨
    (∃ rs rt imm, i = .beq rs rt imm ∧
      t = s.jumpTo (if s.readReg rs = s.readReg rt then s.branchTarget imm else s.pc + 4#32)) ∨
    (∃ rs rt imm, i = .bne rs rt imm ∧
      t = s.jumpTo (if s.readReg rs ≠ s.readReg rt then s.branchTarget imm else s.pc + 4#32)) := by
  cases i with
  | add | sub | and | or | slt | addiu | andi | ori | lui => cases h; exact .inl ⟨_, _, rfl, rfl⟩
  | syscall code => exact absurd rfl (hi code)
  | lw rt imm rs =>
    simp only [exec, execLw] at h
    split at h <;> cases h
    · exact .inl ⟨_, _, rfl, rfl⟩
    · exact .inr (.inl ⟨_, _, _, _, rfl, ‹_›, rfl⟩)
  | sw rt imm rs => cases h; exact .inr (.inr (.inl ⟨_, _, _, rfl, rfl⟩))
  | j target => cases h; exact .inr (.inr (.inr (.inl ⟨_, rfl, rfl⟩)))
  | beq rs rt imm =>
    simp only [exec, execBeq, aluEq_eq_one, branchIf_eq] at h
    cases h
    exact .inr (.inr (.inr (.inr (.inl ⟨_, _, _, rfl, by simp⟩))))
  | bne rs rt imm =>
    simp only [exec, execBne, aluEq_eq_zero, branchIf_eq] at h
    cases h
    exact .inr (.inr (.inr (.inr (.inr ⟨_, _, _, rfl, by simp⟩))))

/-- Everything a system call can do when it answers a next state (R140 to R146). -/
theorem execSyscall_next_cases {code : BitVec 20} {s t : State} (h : execSyscall code s = .next t) :
    (s.readReg v0Idx = 1#32 ∧ t = (s.emit (decimalText (s.readReg a0Idx).toInt)).advance) ∨
    (s.readReg v0Idx = 4#32 ∧ ∃ bytes,
      scanString s.mem scanBound (s.readReg a0Idx) = .terminated bytes ∧ t = (s.emit bytes).advance) ∨
    (s.readReg v0Idx = 4#32 ∧ ∃ bytes addr,
      scanString s.mem scanBound (s.readReg a0Idx) = .unmapped bytes addr ∧
      t = (s.emit bytes).raise (.unmappedAccess addr s.pc)) ∨
    (s.readReg v0Idx = 5#32 ∧ ∃ v, s.nextAnswer = .value v ∧ t = s.takeAnswer.retire v0Idx v) ∨
    (s.readReg v0Idx = 5#32 ∧ s.nextAnswer = .invalid ∧
      t = s.takeAnswer.raise (.invalidInput (syscallWord code) s.pc)) ∨
    (s.readReg v0Idx = 10#32 ∧ t = s.enterHalted .exit) ∨
    (s.readReg v0Idx ≠ 1#32 ∧ s.readReg v0Idx ≠ 4#32 ∧ s.readReg v0Idx ≠ 5#32 ∧
      s.readReg v0Idx ≠ 10#32 ∧ t = s.raise (.invalidSyscall (syscallWord code) s.pc)) := by
  rcases execSyscall_cases code s with ⟨hv, e⟩ | ⟨hv, e⟩ | ⟨hv, e⟩ | ⟨hv, e⟩ | ⟨h1, h4, h5, h10, e⟩ <;>
    rw [e] at h
  · cases h; exact .inl ⟨hv, rfl⟩
  · unfold printString at h
    split at h <;> cases h
    · exact .inr (.inl ⟨hv, _, ‹_›, rfl⟩)
    · exact .inr (.inr (.inl ⟨hv, _, _, ‹_›, rfl⟩))
  · unfold readInteger at h
    split at h <;> cases h
    · exact .inr (.inr (.inr (.inl ⟨hv, _, ‹_›, rfl⟩)))
    · exact .inr (.inr (.inr (.inr (.inl ⟨hv, ‹_›, rfl⟩))))
  · cases h; exact .inr (.inr (.inr (.inr (.inr (.inl ⟨hv, rfl⟩)))))
  · cases h; exact .inr (.inr (.inr (.inr (.inr (.inr ⟨h1, h4, h5, h10, rfl⟩)))))

end Sys2Proof.Machine
end

