-- ==== Sys2Proof/Laws/PerInstr.lean ====
section
/-! SUPPORT. Family `OpcodeRow`: the encoder's word of every instruction is selected by the row of R86's
table that bears its mnemonic. -/

namespace Sys2Proof.Laws.OpcodeRow

/-- Some row with the instruction's mnemonic selects its word, `(w & mask) == match` (R86). -/
def Statement (i : Instr) : Prop :=
  ∃ row ∈ opcodeTable, row.mnemonic = i.mnemonic ∧ row.selects (encode i) = true

theorem selects_iff (row : OpcodeRow) (w : Word) :
    row.selects w = true ↔ (w &&& row.mask).toNat = row.pattern.toNat := by
  rw [OpcodeRow.selects, beq_iff_eq, BitVec.toNat_inj]

theorem rFormat_selected (rs rt rd : RegIdx) (unused : BitVec 5) {funct : Nat} (h : funct < 64) :
    (rFormat rs rt rd unused funct &&& 0xFC00003F#32).toNat = funct := by
  have := rs.isLt; have := rt.isLt; have := rd.isLt; have := unused.isLt
  rw [and_functMask, rFormat_toNat _ _ _ _ h]
  omega

theorem iFormat_selected {opcode : Nat} (h : opcode < 64) (rs rt : RegIdx) (imm : BitVec 16) :
    (iFormat opcode rs rt imm &&& 0xFC000000#32).toNat = opcode * 2 ^ 26 := by
  have := rs.isLt; have := rt.isLt; have := imm.isLt
  rw [and_opcodeMask, iFormat_toNat h]
  omega

theorem add (rd rs rt : RegIdx) (unused : BitVec 5) : Statement (.add rd rs rt unused) :=
  ⟨⟨"ADD", 0xFC00003F#32, 0x00000020#32⟩, by decide, rfl,
    (selects_iff _ _).mpr (rFormat_selected rs rt rd unused (by decide))⟩

theorem sub (rd rs rt : RegIdx) (unused : BitVec 5) : Statement (.sub rd rs rt unused) :=
  ⟨⟨"SUB", 0xFC00003F#32, 0x00000022#32⟩, by decide, rfl,
    (selects_iff _ _).mpr (rFormat_selected rs rt rd unused (by decide))⟩

theorem and (rd rs rt : RegIdx) (unused : BitVec 5) : Statement (.and rd rs rt unused) :=
  ⟨⟨"AND", 0xFC00003F#32, 0x00000024#32⟩, by decide, rfl,
    (selects_iff _ _).mpr (rFormat_selected rs rt rd unused (by decide))⟩

theorem or (rd rs rt : RegIdx) (unused : BitVec 5) : Statement (.or rd rs rt unused) :=
  ⟨⟨"OR", 0xFC00003F#32, 0x00000025#32⟩, by decide, rfl,
    (selects_iff _ _).mpr (rFormat_selected rs rt rd unused (by decide))⟩

theorem slt (rd rs rt : RegIdx) (unused : BitVec 5) : Statement (.slt rd rs rt unused) :=
  ⟨⟨"SLT", 0xFC00003F#32, 0x0000002A#32⟩, by decide, rfl,
    (selects_iff _ _).mpr (rFormat_selected rs rt rd unused (by decide))⟩

theorem syscall (code : BitVec 20) : Statement (.syscall code) := by
  refine ⟨⟨"SYSCALL", 0xFC00003F#32, 0x0000000C#32⟩, by decide, rfl, (selects_iff _ _).mpr ?_⟩
  have := code.isLt
  show (syscallWord code &&& 0xFC00003F#32).toNat = 12
  rw [and_functMask, syscallWord_toNat]
  omega

theorem j (target : BitVec 26) : Statement (.j target) := by
  refine ⟨⟨"J", 0xFC000000#32, 0x08000000#32⟩, by decide, rfl, (selects_iff _ _).mpr ?_⟩
  have := target.isLt
  show (jFormat target &&& 0xFC000000#32).toNat = 2 * 2 ^ 26
  rw [and_opcodeMask, jFormat_toNat]
  omega

theorem beq (rs rt : RegIdx) (imm : BitVec 16) : Statement (.beq rs rt imm) :=
  ⟨⟨"BEQ", 0xFC000000#32, 0x10000000#32⟩, by decide, rfl,
    (selects_iff _ _).mpr (iFormat_selected (by decide) rs rt imm)⟩

theorem bne (rs rt : RegIdx) (imm : BitVec 16) : Statement (.bne rs rt imm) :=
  ⟨⟨"BNE", 0xFC000000#32, 0x14000000#32⟩, by decide, rfl,
    (selects_iff _ _).mpr (iFormat_selected (by decide) rs rt imm)⟩

theorem addiu (rt rs : RegIdx) (imm : BitVec 16) : Statement (.addiu rt rs imm) :=
  ⟨⟨"ADDIU", 0xFC000000#32, 0x24000000#32⟩, by decide, rfl,
    (selects_iff _ _).mpr (iFormat_selected (by decide) rs rt imm)⟩

theorem andi (rt rs : RegIdx) (imm : BitVec 16) : Statement (.andi rt rs imm) :=
  ⟨⟨"ANDI", 0xFC000000#32, 0x30000000#32⟩, by decide, rfl,
    (selects_iff _ _).mpr (iFormat_selected (by decide) rs rt imm)⟩

theorem ori (rt rs : RegIdx) (imm : BitVec 16) : Statement (.ori rt rs imm) :=
  ⟨⟨"ORI", 0xFC000000#32, 0x34000000#32⟩, by decide, rfl,
    (selects_iff _ _).mpr (iFormat_selected (by decide) rs rt imm)⟩

theorem lui (rt : RegIdx) (imm : BitVec 16) (rsField : BitVec 5) : Statement (.lui rt imm rsField) :=
  ⟨⟨"LUI", 0xFC000000#32, 0x3C000000#32⟩, by decide, rfl,
    (selects_iff _ _).mpr (iFormat_selected (by decide) rsField rt imm)⟩

theorem lw (rt : RegIdx) (imm : BitVec 16) (rs : RegIdx) : Statement (.lw rt imm rs) :=
  ⟨⟨"LW", 0xFC000000#32, 0x8C000000#32⟩, by decide, rfl,
    (selects_iff _ _).mpr (iFormat_selected (by decide) rs rt imm)⟩

theorem sw (rt : RegIdx) (imm : BitVec 16) (rs : RegIdx) : Statement (.sw rt imm rs) :=
  ⟨⟨"SW", 0xFC000000#32, 0xAC000000#32⟩, by decide, rfl,
    (selects_iff _ _).mpr (iFormat_selected (by decide) rs rt imm)⟩

end Sys2Proof.Laws.OpcodeRow
end

