-- ==== Sys2Proof/Tests/Slice0.lean ====
section
/-! SUPPORT. The model's own tests. Expected results are those of spec/95_test_vectors.md (named by
section) or hand calculation from the rule cited; each test is one step on a small state. Then, for every
statement with hypotheses, a concrete state and operands that meet them (`witness_…`). -/

namespace Sys2Proof.Tests

open Sys2Proof Sys2Proof.Machine

/-! ### Helpers -/

/-- The reset state with some registers set. -/
def withRegs (regs : List (RegIdx × Word)) : State :=
  regs.foldl (fun s p => s.writeReg p.1 p.2) State.reset

/-- That state with one instruction word at the pc. -/
def ready (regs : List (RegIdx × Word)) (w : Word) : State := (withRegs regs).withFetchWord 32 w.toNat

/-- The next state of an outcome, if it is one. -/
def nextOf (o : Host.Outcome State Fault Refusal) : Option State :=
  match o with
  | .next t => some t
  | .fault _ => none
  | .refused _ => none

/-- One register after one step. -/
def regAfter (s : State) (r : RegIdx) : Option Word := (nextOf (step s)).map (·.readReg r)

/-- The pc after one step. -/
def pcAfter (s : State) : Option Word := (nextOf (step s)).map (·.pc)

/-- The run state after one step. -/
def runAfter (s : State) : Option RunState := (nextOf (step s)).map (·.run)

/-- The output after one step. -/
def outAfter (s : State) : Option (List Byte) := (nextOf (step s)).map (·.out)

/-- Bytes laid out from an address upward. -/
def bytesAt (m : Memory) (a : Word) : List Byte → Memory
  | [] => m
  | b :: bs => bytesAt (m.writeByte a b) (a + 1#32) bs

/-- A state with some bytes in memory beside the instruction at the pc. -/
def readyMem (regs : List (RegIdx × Word)) (w : Word) (a : Word) (bs : List Byte) : State :=
  let s := ready regs w
  { s with mem := bytesAt s.mem a bs }

/-! ### WellFormed: each check refuses an ill-formed launch (R222) -/

theorem test_launch_text_past_the_top :
    Launch.imagesFit ⟨[], 0xFFFFFFFD#32, [0#32], []⟩ = false := by decide

theorem test_launch_data_up_to_the_top :
    Launch.wellFormed ⟨[0#32], 0xFFFFFFFC#32, [0#32], []⟩ = true := by decide

theorem test_launch_images_share_one_byte :
    Launch.imagesDisjoint ⟨[0#32], 0x00400003#32, [0#32], []⟩ = false := by decide

theorem test_launch_images_adjacent :
    Launch.wellFormed ⟨[0#32], 0x00400004#32, [0#32], []⟩ = true := by decide

/-! ### Decode: a word of every constructor, its bits written out field by field (R82 to R86) -/

theorem test_decode_add : decode 0b000000_01001_01010_01000_00000_100000#32 = .ok (.add 8#5 9#5 10#5 0#5) := rfl
theorem test_decode_sub : decode 0b000000_01001_01000_01011_00000_100010#32 = .ok (.sub 11#5 9#5 8#5 0#5) := rfl
theorem test_decode_and : decode 0b000000_01000_01001_01100_00000_100100#32 = .ok (.and 12#5 8#5 9#5 0#5) := rfl
theorem test_decode_or : decode 0b000000_01000_01001_01101_00000_100101#32 = .ok (.or 13#5 8#5 9#5 0#5) := rfl
theorem test_decode_slt : decode 0b000000_01010_01011_01001_11111_101010#32 = .ok (.slt 9#5 10#5 11#5 31#5) := rfl
theorem test_decode_syscall : decode 0b000000_11111_11111_11111_11111_001100#32 = .ok (.syscall 0xFFFFF#20) := rfl
theorem test_decode_j : decode 0b000010_00000100000000000000001010#32 = .ok (.j 0x010000A#26) := rfl
theorem test_decode_beq : decode 0b000100_01001_01000_0000000000000001#32 = .ok (.beq 9#5 8#5 1#16) := rfl
theorem test_decode_bne : decode 0b000101_01000_00000_1111111111111101#32 = .ok (.bne 8#5 0#5 0xFFFD#16) := rfl
theorem test_decode_addiu : decode 0b001001_00000_01001_1111111111111111#32 = .ok (.addiu 9#5 0#5 0xFFFF#16) := rfl
theorem test_decode_andi : decode 0b001100_01001_10000_1111111100000000#32 = .ok (.andi 16#5 9#5 0xFF00#16) := rfl
theorem test_decode_ori : decode 0b001101_01000_01001_0101011001111000#32 = .ok (.ori 9#5 8#5 0x5678#16) := rfl
theorem test_decode_lui : decode 0b001111_11111_01001_0001001000110100#32 = .ok (.lui 9#5 0x1234#16 31#5) := rfl
theorem test_decode_lw : decode 0b100011_11101_11111_0000000000000100#32 = .ok (.lw 31#5 4#16 29#5) := rfl
theorem test_decode_sw : decode 0b101011_11101_01000_1111111111111100#32 = .ok (.sw 8#5 0xFFFC#16 29#5) := rfl

/-- V7: the MIPS no-operation word is no instruction here. -/
theorem test_decode_zero_word : decode 0x00000000#32 = .error .invalidFunct := rfl
/-- V7: opcode 42 is not SLT. -/
theorem test_decode_opcode_42 : decode 0xA8000000#32 = .error .invalidOpcode := rfl
/-- V7: funct is not looked at when the opcode is not 0. -/
theorem test_decode_opcode_1_funct_42 : decode 0x0400002A#32 = .error .invalidOpcode := rfl
/-- V7: funct 35 is not LW. -/
theorem test_decode_funct_35 : decode 0x00000023#32 = .error .invalidFunct := rfl

/-- P3, P4. -/
theorem test_encode_words :
    encode (.sw 8#5 0xFFFC#16 29#5) = 0xAFA8FFFC#32 ∧ encode (.beq 9#5 9#5 1#16) = 0x11290001#32 ∧
    encode (.slt 14#5 9#5 8#5 0#5) = 0x0128702A#32 ∧ encode (.j 0x0100003#26) = 0x08100003#32 ∧
    encode (.syscall 0#20) = 0x0000000C#32 ∧ encode (.lui 8#5 0x1234#16 0#5) = 0x3C081234#32 := by decide

theorem test_decodeTableWord : decodeTableWord 32 0x8FBF0004 = some (.lw 31#5 4#16 29#5) := rfl

/-! ### Register-register ALU (V2) -/

theorem test_add_wraps : regAfter (ready [(8#5, 0x7FFFFFFF#32), (9#5, 1#32)] 0x01095020#32) 10#5 = some 0x80000000#32 := by decide
theorem test_add_writes_register_zero : regAfter (ready [(8#5, 3#32), (9#5, 4#32)] 0x01090020#32) 0#5 = some 7#32 := by decide
theorem test_sub_wraps : regAfter (ready [(8#5, 0x80000000#32), (9#5, 0x7FFFFFFF#32)] 0x01095022#32) 10#5 = some 1#32 := by decide
theorem test_sub_of_itself : regAfter (ready [(8#5, 0xDEADBEEF#32)] 0x01084022#32) 8#5 = some 0#32 := by decide
theorem test_and : regAfter (ready [(8#5, 0x12345678#32), (9#5, 0x0F0F0F0F#32)] 0x01095024#32) 10#5 = some 0x02040608#32 := by decide
theorem test_or : regAfter (ready [(8#5, 0x12345678#32), (9#5, 0x0F0F0F0F#32)] 0x01095025#32) 10#5 = some 0x1F3F5F7F#32 := by decide
theorem test_slt_is_signed : regAfter (ready [(8#5, 1#32), (9#5, 0xFFFFFFFF#32)] 0x0109502A#32) 10#5 = some 0#32 := by decide
theorem test_slt_at_the_extremes : regAfter (ready [(8#5, 0x80000000#32), (9#5, 0x7FFFFFFF#32)] 0x0109502A#32) 10#5 = some 1#32 := by decide

/-! ### Immediate ALU (V3) -/

theorem test_addiu_sign_extends : regAfter (ready [(8#5, 0#32)] 0x25098000#32) 9#5 = some 0xFFFF8000#32 := by decide
theorem test_addiu_wraps : regAfter (ready [(8#5, 0x80000000#32)] 0x2509FFFF#32) 9#5 = some 0x7FFFFFFF#32 := by decide
theorem test_andi_zero_extends : regAfter (ready [(8#5, 0xFFFFFFFF#32)] 0x31098000#32) 9#5 = some 0x00008000#32 := by decide
theorem test_ori_zero_extends : regAfter (ready [(8#5, 0#32)] 0x35098000#32) 9#5 = some 0x00008000#32 := by decide
theorem test_ori_keeps_high_half : regAfter (ready [(8#5, 0xFFFF0000#32)] 0x350900FF#32) 9#5 = some 0xFFFF00FF#32 := by decide
theorem test_lui_ignores_rs : regAfter (ready [(31#5, 0xFFFFFFFF#32)] 0x3FE91234#32) 9#5 = some 0x12340000#32 := by decide

/-! ### Control transfer (V4) -/

theorem test_j_drops_high_pc_bits : pcAfter ({ ready [] 0#32 with pc := 0xF0400000#32 }.withFetchWord 32 0x08100003) = some 0x0040000C#32 := by decide
theorem test_j_highest_target : pcAfter (ready [] 0x0BFFFFFF#32) = some 0x0FFFFFFC#32 := by decide
theorem test_beq_taken_backward : pcAfter ({ ready [(8#5, 1#32), (9#5, 1#32)] 0#32 with pc := 0x00420000#32 }.withFetchWord 32 0x11098000) = some 0x00400004#32 := by decide
theorem test_beq_not_taken : pcAfter (ready [(8#5, 5#32), (9#5, 6#32)] 0x11090003#32) = some 0x00400004#32 := by decide
theorem test_bne_taken : pcAfter (ready [(8#5, 9#32), (9#5, 8#32)] 0x15097FFF#32) = some 0x00420000#32 := by decide
theorem test_bne_wraps_downward : pcAfter ({ ready [(8#5, 3#32), (9#5, 4#32)] 0#32 with pc := 0#32 }.withFetchWord 32 0x1509FFFE) = some 0xFFFFFFFC#32 := by decide

/-! ### Loads and stores (V5) -/

theorem test_lw_little_endian : regAfter (readyMem [] 0x8FA90000#32 0x7FFFEFFC#32 [0x44#8, 0x33#8, 0x22#8, 0x11#8]) 9#5 = some 0x11223344#32 := by decide
theorem test_lw_names_lowest_unmapped_byte :
    runAfter (readyMem [] 0x8FA90000#32 0x7FFFEFFC#32 [0x44#8, 0x33#8]) =
      some (.halted (.fatal (.unmappedAccess 0x7FFFEFFE#32 0x00400000#32))) := by decide
theorem test_sw_at_the_wrap :
    (nextOf (step (ready [(29#5, 2#32), (9#5, 0x11223344#32)] 0xAFA9FFFC#32))).map
      (fun t => [t.mem.readByte 0xFFFFFFFE#32, t.mem.readByte 0xFFFFFFFF#32, t.mem.readByte 0#32, t.mem.readByte 1#32]) =
      some [some 0x44#8, some 0x33#8, some 0x22#8, some 0x11#8] := by decide
theorem test_sw_maps_zero_bytes :
    (nextOf (step (ready [] 0xAFA90000#32))).map (fun t => (t.mem.readByte 0x7FFFEFFC#32, t.pc)) =
      some (some 0#8, 0x00400004#32) := by decide

/-! ### SYSCALL (V6) -/

theorem test_print_integer : outAfter (ready [(2#5, 1#32), (4#5, 0x4D2#32)] 0x0000000C#32) = some [0x31#8, 0x32#8, 0x33#8, 0x34#8] := by decide
theorem test_print_least_integer :
    outAfter (ready [(2#5, 1#32), (4#5, 0x80000000#32)] 0x0000000C#32) =
      some [0x2D#8, 0x32#8, 0x31#8, 0x34#8, 0x37#8, 0x34#8, 0x38#8, 0x33#8, 0x36#8, 0x34#8, 0x38#8] := by decide
theorem test_print_string_across_the_wrap :
    outAfter (readyMem [(2#5, 4#32), (4#5, 0xFFFFFFFF#32)] 0x0000000C#32 0xFFFFFFFF#32 [0x41#8, 0x42#8, 0#8]) =
      some [0x41#8, 0x42#8] := by decide
theorem test_print_string_unterminated :
    runAfter (readyMem [(2#5, 4#32), (4#5, 0x7FFFEFFC#32)] 0x0000000C#32 0x7FFFEFFC#32 [0x48#8, 0x69#8]) =
      some (.halted (.fatal (.unmappedAccess 0x7FFFEFFE#32 0x00400000#32))) := by decide
theorem test_read_integer :
    regAfter { ready [(2#5, 5#32)] 0x0000000C#32 with oracle := ⟨[.value 0xFFFFFFD5#32], 0⟩ } 2#5 = some 0xFFFFFFD5#32 := by decide
theorem test_read_integer_invalid :
    runAfter { ready [(2#5, 5#32)] 0x0000000C#32 with oracle := ⟨[.invalid], 0⟩ } =
      some (.halted (.fatal (.invalidInput 0x0000000C#32 0x00400000#32))) := by decide
theorem test_exit : runAfter (ready [(2#5, 10#32)] 0x03FFFFCC#32) = some (.halted .exit) := by decide
theorem test_whole_service_register_is_compared :
    runAfter (ready [(2#5, 0x101#32)] 0x03FFFFCC#32) =
      some (.halted (.fatal (.invalidSyscall 0x03FFFFCC#32 0x00400000#32))) := by decide

/-! ### The step (V7, V8, P8, S9) -/

theorem test_invalid_opcode :
    runAfter (ready [] 0xFC000000#32) = some (.halted (.fatal (.invalidOpcode 0xFC000000#32 0x00400000#32))) := by decide
theorem test_invalid_funct :
    runAfter (ready [] 0x00000000#32) = some (.halted (.fatal (.invalidFunct 0x00000000#32 0x00400000#32))) := by decide
theorem test_half_present_instruction :
    runAfter { State.reset with mem := bytesAt [] 0x00400000#32 [0x40#8] } =
      some (.halted (.fatal (.unmappedAccess 0x00400001#32 0x00400000#32))) := by decide
theorem test_empty_program : runAfter State.reset = some (.halted .noMoreInstructions) := by decide
theorem test_launch_bytes :
    (nextOf (launch ⟨[0x3C081234#32, 0x0000000C#32], 0x10010000#32, [0x00006948#32], []⟩)).map (·.mem) =
      some [(0x00400000, 0x34#8), (0x00400001, 0x12#8), (0x00400002, 0x08#8), (0x00400003, 0x3C#8),
        (0x00400004, 0x0C#8), (0x00400005, 0#8), (0x00400006, 0#8), (0x00400007, 0#8),
        (0x10010000, 0x48#8), (0x10010001, 0x69#8), (0x10010002, 0#8), (0x10010003, 0#8)] := by decide

/-! ### Witnesses: every hypothesis of every statement can be met -/

/-- Four mapped bytes across the wrap, at 0xFFFFFFFE. -/
def wrapState : State := { withRegs [(8#5, 2#32)] with mem := bytesAt [] 0xFFFFFFFE#32 [1#8, 2#8, 3#8, 4#8] }

theorem witness_ExtractIsShiftAndMask : 0 ≤ 31 ∧ 31 ≤ 31 ∧ extract 31 0 0xFFFFFFFF#32 = 0xFFFFFFFF#32 ∧
    extract 31 31 0xDEADBEEF#32 = 1#1 ∧ extract 0 0 0xDEADBEEF#32 = 1#1 := by decide

theorem witness_FieldsAreTheirBits :
    5 < 6 ∧ (fieldsOf 0x80000000#32).opcode.getLsbD 5 = true ∧ 4 < 5 ∧ (fieldsOf 0x02000000#32).rs.getLsbD 4 = true ∧
    (fieldsOf 0x00100000#32).rt.getLsbD 4 = true ∧ (fieldsOf 0x00008000#32).rd.getLsbD 4 = true ∧
    (fieldsOf 0x00000400#32).unused.getLsbD 4 = true ∧ (fieldsOf 0x00000020#32).funct.getLsbD 5 = true ∧
    15 < 16 ∧ (fieldsOf 0x00008000#32).imm.getLsbD 15 = true ∧
    25 < 26 ∧ (fieldsOf 0x02000000#32).target.getLsbD 25 = true := by decide

theorem witness_EncodeOfDecodeIsIdentity : decode 0x03FFFFCC#32 = .ok (.syscall 0xFFFFF#20) := rfl

theorem witness_TableSelectsExactlyTheDecodedWords :
    ∃ row ∈ opcodeTable, row.selects 0x010957E0#32 = true ∧ row.mnemonic = "ADD" :=
  ⟨⟨"ADD", 0xFC00003F#32, 0x00000020#32⟩, by decide⟩

theorem witness_UnlistedWordsAreRejectedByName :
    (0xFC000000#32).toNat / 2 ^ 26 ∉ [0, 2, 4, 5, 9, 12, 13, 15, 35, 43] ∧
    (0x0000003F#32).toNat / 2 ^ 26 = 0 ∧ (0x0000003F#32).toNat % 2 ^ 6 ∉ [12, 32, 34, 36, 37, 42] := by decide

theorem witness_IgnoredBitsChangeNothing_alu :
    decode 0x010957E0#32 = .ok (.add 10#5 8#5 9#5 31#5) ∧ decode 0x01095020#32 = .ok (.add 10#5 8#5 9#5 0#5) ∧
    (0x010957E0#32).toNat / 2 ^ 26 = 0 ∧ (0x010957E0#32).toNat % 2 ^ 6 ≠ 12 ∧
    0x010957E0#32 &&& 0xFFFFF83F#32 = 0x01095020#32 &&& 0xFFFFF83F#32 :=
  ⟨rfl, rfl, by decide, by decide, by decide⟩

theorem witness_IgnoredBitsChangeNothing_lui :
    decode 0x3FE91234#32 = .ok (.lui 9#5 0x1234#16 31#5) ∧ decode 0x3C091234#32 = .ok (.lui 9#5 0x1234#16 0#5) ∧
    (0x3FE91234#32).toNat / 2 ^ 26 = 15 ∧ 0x3FE91234#32 &&& 0xFC1FFFFF#32 = 0x3C091234#32 &&& 0xFC1FFFFF#32 :=
  ⟨rfl, rfl, by decide, by decide⟩

theorem witness_IgnoredBitsChangeNothing_syscall :
    decode 0x03FFFFCC#32 = .ok (.syscall 0xFFFFF#20) ∧ decode 0x0000000C#32 = .ok (.syscall 0#20) ∧
    (0x03FFFFCC#32).toNat / 2 ^ 26 = 0 ∧ (0x03FFFFCC#32).toNat % 2 ^ 6 = 12 ∧
    0x03FFFFCC#32 &&& 0xFC00003F#32 = 0x0000000C#32 &&& 0xFC00003F#32 ∧
    (withRegs [(2#5, 10#32)]).readReg v0Idx = 10#32 :=
  ⟨rfl, rfl, by decide, by decide, by decide, by decide⟩

theorem witness_AddWritesWrappedSum : 0x010957E0#32 &&& 0xFC00003F#32 = 0x00000020#32 := by decide
theorem witness_SubWritesWrappedDifference : 0x03FFFFE2#32 &&& 0xFC00003F#32 = 0x00000022#32 := by decide
theorem witness_AndWritesBitwiseConjunction : 0x01096024#32 &&& 0xFC00003F#32 = 0x00000024#32 := by decide
theorem witness_OrWritesBitwiseDisjunction : 0x01096825#32 &&& 0xFC00003F#32 = 0x00000025#32 := by decide
theorem witness_SltWritesSignedComparison : 0x014B4FEA#32 &&& 0xFC00003F#32 = 0x0000002A#32 := by decide
theorem witness_AddiuAddsSignedImmediate : 0x27FFFFFF#32 &&& 0xFC000000#32 = 0x24000000#32 := by decide
theorem witness_AndiMasksWithRawImmediate : 0x3130FF00#32 &&& 0xFC000000#32 = 0x30000000#32 ∧ 31 < 32 ∧ 16 ≤ 31 := by decide
theorem witness_OriSetsWithRawImmediate : 0x35085678#32 &&& 0xFC000000#32 = 0x34000000#32 ∧ 15 < 16 ∧ 16 ≤ 16 := by decide
theorem witness_LuiLoadsHighHalf : 0x3FE81234#32 &&& 0xFC000000#32 = 0x3C000000#32 := by decide
theorem witness_JumpGoesToTarget : 0x0BFFFFFF#32 &&& 0xFC000000#32 = 0x08000000#32 := by decide
theorem witness_BeqBranchesOnEqual : 0x11290001#32 &&& 0xFC000000#32 = 0x10000000#32 := by decide
theorem witness_BneBranchesOnUnequal : 0x1500FFFD#32 &&& 0xFC000000#32 = 0x14000000#32 := by decide

theorem witness_LwLoadsLittleEndianWord :
    0xFFFFFFFE#32 = BitVec.ofInt 32 ((wrapState.readReg 8#5).toNat + (0xFFFC#16).toInt) ∧
    wrapState.mem.readByte 0xFFFFFFFE#32 = some 1#8 ∧ wrapState.mem.readByte (0xFFFFFFFE#32 + 1#32) = some 2#8 ∧
    wrapState.mem.readByte (0xFFFFFFFE#32 + 2#32) = some 3#8 ∧
    wrapState.mem.readByte (0xFFFFFFFE#32 + 3#32) = some 4#8 := by decide

theorem witness_LwOfUnmappedByteIsFatal_first :
    0 < 4 ∧ 2#32 = BitVec.ofInt 32 ((wrapState.readReg 8#5).toNat + (0#16).toInt) ∧
    (∀ j < 0, wrapState.mem.mapped (2#32 + BitVec.ofNat 32 j) = true) ∧
    wrapState.mem.mapped (2#32 + BitVec.ofNat 32 0) = false := by decide

theorem witness_LwOfUnmappedByteIsFatal_last :
    3 < 4 ∧ 0xFFFFFFFF#32 = BitVec.ofInt 32 ((wrapState.readReg 8#5).toNat + (0xFFFD#16).toInt) ∧
    (∀ j < 3, wrapState.mem.mapped (0xFFFFFFFF#32 + BitVec.ofNat 32 j) = true) ∧
    wrapState.mem.mapped (0xFFFFFFFF#32 + BitVec.ofNat 32 3) = false := by decide

theorem witness_SwStoresLittleEndianWord :
    wrapState.effectiveAddress 8#5 0xFFFC#16 = 0xFFFFFFFE#32 ∧ ¬ InWord 0xFFFFFFFE#32 2#32 ∧
    ¬ InWord 0xFFFFFFFE#32 0xFFFFFFFD#32 := by unfold InWord; decide

theorem witness_SwThenLwReturnsTheWord : ∃ t, exec (.sw 9#5 0xFFFC#16 8#5) wrapState = .next t ∧
    t.effectiveAddress 8#5 0xFFFC#16 = wrapState.effectiveAddress 8#5 0xFFFC#16 := ⟨_, rfl, rfl⟩

theorem witness_PrintIntegerEmitsDecimalText : (withRegs [(2#5, 1#32)]).readReg v0Idx = 1#32 := by decide

/-- The string "Hi" at 0x7FFFEFFC. -/
def stringState : State :=
  { withRegs [(2#5, 4#32), (4#5, 0x7FFFEFFC#32)] with mem := bytesAt [] 0x7FFFEFFC#32 [0x48#8, 0x69#8, 0#8] }

theorem witness_PrintStringEmitsBytesBeforeZero :
    stringState.readReg v0Idx = 4#32 ∧ [0x48#8, 0x69#8].length < 2 ^ 32 ∧
    (∀ k (h : k < [0x48#8, 0x69#8].length), [0x48#8, 0x69#8][k] ≠ 0#8 ∧
      stringState.mem.readByte (stringState.readReg a0Idx + BitVec.ofNat 32 k) = some [0x48#8, 0x69#8][k]) ∧
    stringState.mem.readByte (stringState.readReg a0Idx + BitVec.ofNat 32 [0x48#8, 0x69#8].length) = some 0#8 := by
  decide

/-- The empty string, at the terminator itself. -/
theorem witness_PrintStringEmitsBytesBeforeZero_empty :
    (stringState.writeReg 4#5 0x7FFFEFFE#32).readReg v0Idx = 4#32 ∧
    stringState.mem.readByte ((stringState.writeReg 4#5 0x7FFFEFFE#32).readReg a0Idx + BitVec.ofNat 32 0) = some 0#8 := by
  decide

/-- "Hi" with no terminator. -/
def unterminatedState : State := { stringState with mem := bytesAt [] 0x7FFFEFFC#32 [0x48#8, 0x69#8] }

theorem witness_PrintStringOfUnmappedByteIsFatal :
    unterminatedState.readReg v0Idx = 4#32 ∧ 2 < 2 ^ 32 ∧
    (∀ k < 2, ∃ b, b ≠ 0#8 ∧
      unterminatedState.mem.readByte (unterminatedState.readReg a0Idx + BitVec.ofNat 32 k) = some b) ∧
    unterminatedState.mem.readByte (unterminatedState.readReg a0Idx + BitVec.ofNat 32 2) = none := by
  refine ⟨by decide, by decide, fun k hk => ?_, by decide⟩
  obtain rfl | rfl : k = 0 ∨ k = 1 := by omega
  · exact ⟨0x48#8, by decide, by decide⟩
  · exact ⟨0x69#8, by decide, by decide⟩

/-- The first `n` addresses, every byte 1. -/
def onesBelow (n : Nat) : Memory := (List.range n).map (fun a => (a, 1#8))

theorem lookup_append (m m' : Memory) (a : Nat) :
    Memory.lookup (m ++ m') a = (Memory.lookup m a).or (Memory.lookup m' a) := by
  induction m with
  | nil => rfl
  | cons c rest ih =>
    obtain ⟨k, b⟩ := c
    simp only [List.cons_append, Memory.lookup]
    split
    · rfl
    · exact ih

theorem lookup_onesBelow (n a : Nat) (h : a < n) : (onesBelow n).lookup a = some 1#8 := by
  induction n with
  | zero => omega
  | succ n ih =>
    unfold onesBelow at ih ⊢
    rw [List.range_succ, List.map_append, lookup_append]
    by_cases ha : a < n
    · rw [ih ha]; rfl
    · have hn : a = n := by omega
      cases hl : Memory.lookup (List.map (fun a => (a, 1#8)) (List.range n)) a with
      | none => simp [Memory.lookup, hn]
      | some b =>
        have hsome : ∀ m : Memory, (∀ c ∈ m, c.2 = 1#8) → ∀ a b, m.lookup a = some b → b = 1#8 := by
          intro m
          induction m with
          | nil => intro _ a b h; cases h
          | cons c rest ihm =>
            obtain ⟨k, v⟩ := c
            intro hall a b h
            simp only [Memory.lookup] at h
            split at h
            · cases h; exact hall (k, v) List.mem_cons_self
            · exact ihm (fun c hc => hall c (List.mem_cons_of_mem _ hc)) a b h
        have hb := hsome _ (by simp) a b hl
        subst hb
        rfl

/-- A memory with every address mapped and non-zero: all ones, but for a SYSCALL word (its four bytes
non-zero) at the reset pc. -/
theorem endless_memory_exists : ∃ m : Memory, m.readWord Config.textBase = .ok 0x03FFFFCC#32 ∧
    ∀ a, ∃ b, b ≠ 0#8 ∧ m.readByte a = some b := by
  obtain ⟨n, hn⟩ : ∃ n, n = 2 ^ 32 := ⟨_, rfl⟩
  refine ⟨(onesBelow n).writeWord Config.textBase 0x03FFFFCC#32, Memory.readWord_writeWord_self _ _ _, fun a => ?_⟩
  rw [Memory.readByte_writeWord]
  split_ifs
  · exact ⟨_, by decide, rfl⟩
  · exact ⟨_, by decide, rfl⟩
  · exact ⟨_, by decide, rfl⟩
  · exact ⟨_, by decide, rfl⟩
  · exact ⟨1#8, by decide, lookup_onesBelow n a.toNat (hn ▸ a.isLt)⟩

theorem witness_PrintStringWithoutEndNeverCompletes : ∃ s : State,
    s.readReg v0Idx = 4#32 ∧ ∀ a, ∃ b, b ≠ 0#8 ∧ s.mem.readByte a = some b := by
  obtain ⟨m, -, hall⟩ := endless_memory_exists
  refine ⟨(withRegs [(2#5, 4#32)]).setMem m, ?_, hall⟩
  rw [State.setMem_readReg]
  decide

theorem witness_ReadIntegerWritesTheAnswer :
    State.readReg { withRegs [(2#5, 5#32)] with oracle := ⟨[.value 42#32], 0⟩ } v0Idx = 5#32 ∧
    State.nextAnswer { withRegs [(2#5, 5#32)] with oracle := ⟨[.value 42#32], 0⟩ } = .value 42#32 := by decide

theorem witness_ReadIntegerOfInvalidInputIsFatal :
    State.readReg { withRegs [(2#5, 5#32)] with oracle := ⟨[.invalid], 0⟩ } v0Idx = 5#32 ∧
    State.nextAnswer { withRegs [(2#5, 5#32)] with oracle := ⟨[.invalid], 0⟩ } = .invalid := by decide

theorem witness_ExitEndsTheRun : (withRegs [(2#5, 10#32)]).readReg v0Idx = 10#32 := by decide

/-- The reset state itself. -/
theorem witness_UnlistedServiceIsFatal :
    State.reset.readReg v0Idx ≠ 1#32 ∧ State.reset.readReg v0Idx ≠ 4#32 ∧ State.reset.readReg v0Idx ≠ 5#32 ∧
    State.reset.readReg v0Idx ≠ 10#32 := by decide

theorem witness_SyscallLeavesTheRestAlone :
    (∃ t, exec (.syscall 0#20) stringState = .next t) ∧ stringState.readReg v0Idx ≠ 5#32 ∧ a0Idx ≠ v0Idx :=
  ⟨Option.isSome_iff_exists.mp (by decide : (nextOf (exec (.syscall 0#20) stringState)).isSome = true) |>.elim
    (fun t ht => ⟨t, by
      cases h : exec (.syscall 0#20) stringState with
      | next u => rw [h] at ht; cases ht; rfl
      | fault f => rw [h] at ht; cases ht
      | refused r => rw [h] at ht; cases ht⟩), by decide, by decide⟩

/-- ADD at the pc of the reset state. -/
def addState : State := ready [] 0x01095020#32

theorem witness_StepRunsTheDecodedInstruction :
    addState.run = .running ∧ addState.mem.readWord addState.pc = .ok 0x01095020#32 ∧
    decode 0x01095020#32 = .ok (.add 10#5 8#5 9#5 0#5) := ⟨rfl, rfl, rfl⟩

theorem witness_MissingInstructionEndsTheRun :
    State.reset.run = .running ∧ State.reset.mem.mapped State.reset.pc = false := by decide

theorem witness_PartialInstructionIsFatal :
    let s := { State.reset with mem := bytesAt [] 0x00400000#32 [1#8, 2#8, 3#8] }
    s.run = .running ∧ 0 < 3 ∧ 3 < 4 ∧ (∀ j < 3, s.mem.mapped (s.pc + BitVec.ofNat 32 j) = true) ∧
    s.mem.mapped (s.pc + BitVec.ofNat 32 3) = false := by decide

theorem witness_UnlistedWordEndsTheRun_opcode :
    (ready [] 0x04000000#32).run = .running ∧
    (ready [] 0x04000000#32).mem.readWord (ready [] 0x04000000#32).pc = .ok 0x04000000#32 ∧
    (0x04000000#32).toNat / 2 ^ 26 ∉ [0, 2, 4, 5, 9, 12, 13, 15, 35, 43] := ⟨rfl, rfl, by decide⟩

theorem witness_UnlistedWordEndsTheRun_funct :
    (ready [] 0#32).run = .running ∧ (ready [] 0#32).mem.readWord (ready [] 0#32).pc = .ok 0#32 ∧
    (0#32).toNat / 2 ^ 26 = 0 ∧ (0#32).toNat % 2 ^ 6 ∉ [12, 32, 34, 36, 37, 42] := ⟨rfl, rfl, by decide, by decide⟩

theorem witness_HaltedMachineTakesNoStep : (State.reset.enterHalted .exit).run = .halted .exit := rfl

theorem witness_HaltingStepKeepsRegistersMemoryAndPc :
    step State.reset = .next (State.reset.enterHalted .noMoreInstructions) ∧
    (State.reset.enterHalted .noMoreInstructions).run ≠ .running := ⟨rfl, by decide⟩

theorem witness_StepStopsOnlyWhereTheSpecSays_halted :
    step (State.reset.enterHalted .exit) = .fault (.halted .exit) := rfl

/-- The other way a step can stop does occur: an unending scan. -/
theorem witness_StepStopsOnlyWhereTheSpecSays_endless : ∃ s : State, step s = .fault .endlessScan := by
  obtain ⟨m, hword, hall⟩ := endless_memory_exists
  have hscan : ∀ fuel a, scanString m fuel a = .endless := by
    intro fuel
    induction fuel with
    | zero => intro a; rfl
    | succ fuel ih =>
      intro a
      obtain ⟨b, hb, hread⟩ := hall a
      rw [scanString_succ, hread]
      simp [hb, ih, Scan.prepend]
  refine ⟨(withRegs [(2#5, 4#32)]).setMem m, ?_⟩
  have hfour : ((withRegs [(2#5, 4#32)]).setMem m).readReg v0Idx = 4#32 := by
    rw [State.setMem_readReg]; decide
  have hfetch := fetchDecode_of_readWord (s := (withRegs [(2#5, 4#32)]).setMem m) hword
  have hdec : decode 0x03FFFFCC#32 = .ok (.syscall 0xFFFFF#20) := rfl
  have hrun : ((withRegs [(2#5, 4#32)]).setMem m).run = .running := rfl
  simp only [step, hrun, hfetch, decodeFetched, hdec, exec]
  simp [execSyscall, hfour, printString, hscan]

theorem witness_StepKeepsTheInvariant :
    Inv State.reset ∧ step State.reset = .next (State.reset.enterHalted .noMoreInstructions) :=
  ⟨⟨by decide, by decide, by rintro r ⟨⟩⟩, rfl⟩

/-- A launch of two instructions, EXIT, with one data word and one known answer. -/
def exitLaunch : Launch := ⟨[0x2402000A#32, 0x0000000C#32], 0x10010000#32, [0x00006948#32], [.value 7#32]⟩

theorem witness_LaunchHasTheInvariant : ∃ s, launch exitLaunch = .next s := ⟨_, rfl⟩

/-- Two steps of that launch: the second ends the run. -/
theorem witness_EveryRunKeepsTheInvariant :
    ∃ s t, launch exitLaunch = .next s ∧ core.run 2 s = .next t ∧ t.run = .halted .exit := ⟨_, _, rfl, rfl, rfl⟩

theorem witness_OnlyStoresChangeMemory :
    ∃ t, exec (.sw 9#5 0#16 29#5) State.reset = .next t ∧ t.mem ≠ State.reset.mem := ⟨_, rfl, by decide⟩

theorem witness_MappedAddressesStayMapped :
    (∃ t, step addState = .next t) ∧ addState.mem.mapped 0x00400003#32 = true := ⟨⟨_, rfl⟩, by decide⟩

theorem witness_OnlyTheTablesRegisterIsWritten :
    (∃ t, exec (.add 10#5 8#5 9#5 0#5) State.reset = .next t) ∧ ¬ mayWrite (.add 10#5 8#5 9#5 0#5) State.reset 0#5 := by
  refine ⟨⟨_, rfl⟩, ?_⟩
  rintro (h | ⟨⟨code, h⟩, -, -⟩)
  · exact absurd h (by decide)
  · cases h

theorem witness_NextPcFollowsTheTable :
    ∃ t, State.reset.run = .running ∧ exec (.beq 0#5 0#5 0x8000#16) State.reset = .next t ∧ t.run = .running :=
  ⟨_, rfl, rfl, rfl⟩

theorem witness_OutputOnlyGrowsAndOnlyByPrinting :
    ∃ t, exec (.syscall 0#20) (withRegs [(2#5, 1#32)]) = .next t ∧ t.out = [] ++ [0x30#8] := ⟨_, rfl, by decide⟩

theorem witness_OracleMattersOnlyToReadInteger :
    (∃ code, Instr.syscall 0#20 = .syscall code) ∧ (withRegs [(2#5, 4#32)]).readReg v0Idx ≠ 5#32 :=
  ⟨⟨_, rfl⟩, by decide⟩

/-- P6, in one store: SW writes ADDIU `$9, $0, 7` over the next instruction. -/
theorem witness_StoredInstructionIsFetchedNext :
    let s := withRegs [(8#5, 0x24090007#32), (10#5, 0x003FFFF4#32)]
    s.run = .running ∧ s.effectiveAddress 10#5 16#16 = s.pc + 4#32 ∧
    decode (s.readReg 8#5) = .ok (.addiu 9#5 0#5 7#16) ∧ ∃ t, exec (.sw 8#5 16#16 10#5) s = .next t :=
  ⟨rfl, by decide, rfl, ⟨_, rfl⟩⟩

theorem witness_LaunchGivesTheResetState : ∃ s, launch exitLaunch = .next s := ⟨_, rfl⟩

theorem witness_LaunchPlacesExactlyTheImages :
    exitLaunch.wellFormed = true ∧ 1 < exitLaunch.text.length ∧ 0 < exitLaunch.data.length := by decide

theorem witness_LaunchRefusesIllFormedImages_wrap :
    2 ^ 32 < (0xFFFFFFFD#32).toNat + 4 * [0#32].length := by decide

theorem witness_LaunchRefusesIllFormedImages_overlap :
    0x00400000 + 4 * [0#32].length ≤ 2 ^ 32 ∧ (0x00400003#32).toNat + 4 * [0#32].length ≤ 2 ^ 32 ∧
    ∃ a, 0x00400000 ≤ a ∧ a < 0x00400000 + 4 * [0#32].length ∧ (0x00400003#32).toNat ≤ a ∧
      a < (0x00400003#32).toNat + 4 * [0#32].length :=
  ⟨by decide, by decide, 0x00400003, by decide⟩

end Sys2Proof.Tests
end

section
/-! PROOFS, the state (10_state.md). First what one instruction can do to the state in six cases and what
one step can do in two; each whole-machine rule is then a case analysis of these. -/

namespace Sys2Proof.Machine

/-! ### Registers, the decoded system call, and the record of an ended run -/

theorem State.readReg_congr {s t : State} (h : t.x = s.x) (r : RegIdx) : t.readReg r = s.readReg r := by
  simp only [State.readReg, h]

/-- The only word that decodes to a system call with these ignored bits (R89; log 10). -/
theorem eq_syscallWord_of_decode {w : Word} {code : BitVec 20} (h : decode w = .ok (.syscall code)) :
    w = syscallWord code := by
  by_cases hop : w.toNat / 2 ^ 26 = 0
  · rcases decode_rFormat_cases hop with ⟨-, e⟩ | ⟨-, e⟩ | ⟨-, e⟩ | ⟨-, e⟩ | ⟨-, e⟩ | ⟨hfn, e⟩ | ⟨-, e⟩ <;>
      rw [e] at h <;> cases h
    exact (syscallWord_code ((opcode_toNat w).trans hop) ((funct_toNat w).trans hfn)).symm
  · rcases decode_other_cases hop with
      ⟨-, e⟩ | ⟨-, e⟩ | ⟨-, e⟩ | ⟨-, e⟩ | ⟨-, e⟩ | ⟨-, e⟩ | ⟨-, e⟩ | ⟨-, e⟩ | ⟨-, e⟩ | ⟨-, e⟩ <;>
      rw [e] at h <;> cases h

/-- `t` is where the run of `s` has ended for reason `r`: registers, memory and pc are as before (R196,
R197). -/
structure EndedFrom (s t : State) (r : HaltReason) : Prop where
  run : t.run = .halted r
  x   : t.x = s.x
  mem : t.mem = s.mem
  pc  : t.pc = s.pc

theorem endedFrom_enterHalted (s : State) (r : HaltReason) : EndedFrom s (s.enterHalted r) r :=
  ⟨rfl, rfl, rfl, rfl⟩

/-- What the record of an ended run says holds of the ending state where it held before the step. -/
theorem EndedFrom.explained {s t : State} {r : HaltReason} (h : EndedFrom s t r)
    (hs : haltExplained s r) : haltExplained t r := by
  have hreg := State.readReg_congr h.x
  rcases r with _ | _ | ⟨_⟩ <;> simpa only [haltExplained, h.mem, h.pc, hreg] using hs

/-! ### What one instruction can do -/

/-- The pc of the next instruction where the run goes on (R26). -/
def nextPc (i : Instr) (s : State) : Word :=
  match i with
  | .j target => jumpTarget target
  | .beq rs rt imm => if s.readReg rs = s.readReg rt then s.branchTarget imm else s.pc + 4#32
  | .bne rs rt imm => if s.readReg rs ≠ s.readReg rt then s.branchTarget imm else s.pc + 4#32
  | _ => s.pc + 4#32

/-- SYSCALL service 1 or 4: the instruction prints (R31). -/
def Prints (i : Instr) (s : State) : Prop :=
  (∃ code, i = .syscall code) ∧ (s.readReg v0Idx = 1#32 ∨ s.readReg v0Idx = 4#32)

/-- If the instruction `i` stands at the pc, then ending the run for reason `r` records the truth. -/
def ExplainsHalt (i : Instr) (s : State) (r : HaltReason) : Prop :=
  ∀ w, s.mem.readWord s.pc = .ok w → decode w = .ok i → haltExplained s r

/-- The six effects an instruction can have (R24, R26, R28, R29, R31, R32). -/
inductive Effect (i : Instr) (s : State) : State → Prop
  | write {d : RegIdx} {v : Word} (hd : destination i = some d) : Effect i s (s.retire d v)
  | store {rt rs : RegIdx} {imm : BitVec 16} (hi : i = .sw rt imm rs) :
      Effect i s (s.setMem (s.mem.writeWord (s.effectiveAddress rs imm) (s.readReg rt))).advance
  | jump : Effect i s (s.jumpTo (nextPc i s))
  | print {b : List Byte} (hp : Prints i s) : Effect i s (s.emit b).advance
  | read {code : BitVec 20} {v : Word} (hi : i = .syscall code) (hv : s.readReg v0Idx = 5#32) :
      Effect i s (s.takeAnswer.retire v0Idx v)
  | halt {t : State} {r : HaltReason} {b : List Byte} (ended : EndedFrom s t r)
      (hout : t.out = s.out ++ b) (hprint : b ≠ [] → Prints i s) (hr : ExplainsHalt i s r) : Effect i s t

/-- An end of the run that prints nothing. -/
theorem Effect.quietHalt {i : Instr} {s t : State} {r : HaltReason} (ended : EndedFrom s t r)
    (hout : t.out = s.out) (hr : ExplainsHalt i s r) : Effect i s t :=
  .halt (b := []) ended (by simpa using hout) (absurd rfl) hr

/-- A system call has one of the six effects (R140 to R146). -/
theorem execSyscall_effect {code : BitVec 20} {s t : State} (h : execSyscall code s = .next t) :
    Effect (.syscall code) s t := by
  rcases execSyscall_next_cases h with ⟨hv, rfl⟩ | ⟨hv, bytes, -, rfl⟩ | ⟨hv, bytes, addr, hscan, rfl⟩ |
    ⟨hv, v, -, rfl⟩ | ⟨hv, -, rfl⟩ | ⟨hv, rfl⟩ | ⟨h1, h4, h5, h10, rfl⟩
  · exact .print ⟨⟨code, rfl⟩, .inl hv⟩
  · exact .print ⟨⟨code, rfl⟩, .inr hv⟩
  · exact .halt (b := bytes) ⟨rfl, rfl, rfl, rfl⟩ rfl (fun _ => ⟨⟨code, rfl⟩, .inr hv⟩)
      fun _ _ _ => ⟨rfl, Memory.mapped_eq_false.mpr (scanString_unmapped hscan)⟩
  · exact .read rfl hv
  · exact .quietHalt ⟨rfl, rfl, rfl, rfl⟩ rfl
      fun w hw hd => ⟨rfl, eq_syscallWord_of_decode hd ▸ hw, ⟨code, eq_syscallWord_of_decode hd ▸ hd⟩, hv⟩
  · exact .quietHalt (endedFrom_enterHalted s _) rfl fun w hw hd => ⟨w, code, hw, hd, hv⟩
  · exact .quietHalt (endedFrom_enterHalted s _) rfl fun w hw hd =>
      ⟨rfl, eq_syscallWord_of_decode hd ▸ hw, ⟨code, eq_syscallWord_of_decode hd ▸ hd⟩, h1, h4, h5, h10⟩

/-- Every instruction that answers a next state has one of the six effects. -/
theorem exec_effect {i : Instr} {s t : State} (h : exec i s = .next t) : Effect i s t := by
  by_cases hi : ∃ code, i = .syscall code
  · obtain ⟨code, rfl⟩ := hi
    exact execSyscall_effect h
  · rcases exec_cases (not_exists.mp hi) h with ⟨d, v, hd, rfl⟩ | ⟨rt, imm, rs, b, rfl, hb, rfl⟩ |
      ⟨rt, imm, rs, hi, rfl⟩ | ⟨target, rfl, rfl⟩ | ⟨rs, rt, imm, rfl, rfl⟩ | ⟨rs, rt, imm, rfl, rfl⟩
    · exact .write hd
    · exact .quietHalt (endedFrom_enterHalted s _) rfl
        fun _ _ _ => ⟨rfl, Memory.mapped_eq_false.mpr (Memory.readByte_of_readWord_error hb)⟩
    · exact .store hi
    all_goals exact .jump

/-- R24: the registers after an instruction. -/
theorem Effect.readReg {i : Instr} {s t : State} (h : Effect i s t) {r : RegIdx} (hr : ¬ mayWrite i s r) :
    t.readReg r = s.readReg r := by
  cases h with
  | write hd => exact s.readReg_retire_of_ne (fun (he : r = _) => hr (.inl (he ▸ hd))) _
  | read hi hv => exact s.takeAnswer.readReg_retire_of_ne (fun he => hr (.inr ⟨⟨_, hi⟩, hv, he⟩)) _
  | halt ended => exact State.readReg_congr ended.x r
  | store | jump | print => rfl

/-- R29: the memory after an instruction. -/
theorem Effect.mem {i : Instr} {s t : State} (h : Effect i s t) :
    t.mem = s.mem ∨ ∃ rt imm rs, i = .sw rt imm rs ∧
      t.mem = s.mem.writeWord (s.effectiveAddress rs imm) (s.readReg rt) := by
  cases h with
  | store hi => exact .inr ⟨_, _, _, hi, rfl⟩
  | halt ended => exact .inl ended.mem
  | write | jump | print | read => exact .inl rfl

/-- R31: the output after an instruction. -/
theorem Effect.out {i : Instr} {s t : State} (h : Effect i s t) :
    ∃ b, t.out = s.out ++ b ∧ (b ≠ [] → Prints i s) := by
  cases h with
  | print hp => exact ⟨_, rfl, fun _ => hp⟩
  | halt ended hout hprint => exact ⟨_, hout, hprint⟩
  | write | store | jump | read => exact ⟨[], (List.append_nil _).symm, absurd rfl⟩

/-- An instruction with a destination register is followed by the next one in sequence. -/
theorem nextPc_of_destination {i : Instr} {d : RegIdx} (h : destination i = some d) (s : State) :
    nextPc i s = s.pc + 4#32 := by
  cases i with
  | j | beq | bne => cases h
  | _ => rfl

/-- R26 and R28: an instruction leaves the run as it is and goes to the next pc, or ends the run. -/
theorem Effect.run {i : Instr} {s t : State} (h : Effect i s t) :
    (t.run = s.run ∧ t.pc = nextPc i s) ∨ ∃ r, EndedFrom s t r ∧ ExplainsHalt i s r := by
  cases h with
  | write hd => exact .inl ⟨rfl, (nextPc_of_destination hd s).symm⟩
  | store hi => subst hi; exact .inl ⟨rfl, rfl⟩
  | jump => exact .inl ⟨rfl, rfl⟩
  | print hp => obtain ⟨⟨code, rfl⟩, -⟩ := hp; exact .inl ⟨rfl, rfl⟩
  | read hi => subst hi; exact .inl ⟨rfl, rfl⟩
  | halt ended _ _ hr => exact .inr ⟨_, ended, hr⟩

/-! ### What one step can do -/

/-- A rejected word's record names the word and the error (R191, R192). -/
theorem haltExplained_fatalOfDecodeError {s : State} {w : Word} {e : DecodeError}
    (hw : s.mem.readWord s.pc = .ok w) (hd : decode w = .error e) :
    haltExplained s (.fatal (fatalOfDecodeError e w s.pc)) := by
  cases e <;> exact ⟨rfl, hw, hd⟩

/-- A step that answers a next state ends the run with a true record, or executes an instruction after
which the run goes on at its next pc (R113). -/
theorem step_next_cases {s t : State} (h : step s = .next t) :
    (∃ r, EndedFrom s t r ∧ haltExplained s r) ∨
      ∃ i, Effect i s t ∧ t.run = .running ∧ t.pc = nextPc i s := by
  rcases step_cases s with ⟨r, -, e⟩ | ⟨-, hm, e⟩ | ⟨b, -, -, hb, e⟩ | ⟨w, err, -, hw, hd, e⟩ |
    ⟨w, i, hrun, hw, hd, e⟩ <;> rw [e] at h
  · cases h
  · cases h; exact .inl ⟨_, endedFrom_enterHalted s _, hm⟩
  · cases h
    exact .inl ⟨_, endedFrom_enterHalted s _, rfl,
      Memory.mapped_eq_false.mpr (Memory.readByte_of_readWord_error hb)⟩
  · cases h; exact .inl ⟨_, endedFrom_enterHalted s _, haltExplained_fatalOfDecodeError hw hd⟩
  · have heffect := exec_effect h
    rcases heffect.run with ⟨hsame, hpc⟩ | ⟨r, ended, hr⟩
    · exact .inr ⟨i, heffect, hsame.trans hrun, hpc⟩
    · exact .inl ⟨r, ended, hr w hw hd⟩

/-- The memory after a step: as before, or as one store left it (R29). -/
theorem step_mem {s t : State} (h : step s = .next t) :
    t.mem = s.mem ∨ ∃ a v, t.mem = s.mem.writeWord a v := by
  rcases step_next_cases h with ⟨r, ended, -⟩ | ⟨i, heffect, -, -⟩
  · exact .inl ended.mem
  · rcases heffect.mem with hsame | ⟨rt, imm, rs, -, hstore⟩
    · exact .inl hsame
    · exact .inr ⟨_, _, hstore⟩

/-! ### The invariant -/

/-- R27: every next pc is a multiple of 4 where the pc is. -/
theorem nextPc_aligned (i : Instr) {s : State} (h : s.pc.toNat % 4 = 0) : (nextPc i s).toNat % 4 = 0 := by
  have hseq : (s.pc + 4#32).toNat % 4 = 0 := by bv_omega
  have hbranch (imm : BitVec 16) : (s.branchTarget imm).toNat % 4 = 0 := by
    simp only [State.branchTarget, alu, aluAdd, branchDisplacement, BitVec.toNat_add,
      BitVec.toNat_shiftLeft, Nat.shiftLeft_eq] at hseq ⊢
    omega
  cases i with
  | j target => simp only [nextPc, jumpTarget_toNat]; omega
  | beq rs rt imm => simp only [nextPc]; split; exacts [hbranch imm, hseq]
  | bne rs rt imm => simp only [nextPc]; split; exacts [hbranch imm, hseq]
  | _ => exact hseq

/-- Settles O43: a step keeps the memory canonical because only a store changes it, and the pc is the one
before or the next pc; the record of an end comes with the step that makes it. -/
theorem stepKeepsTheInvariant : Obligations.StepKeepsTheInvariant := by
  intro s t hinv h
  have hmemory : t.mem.wf = true := by
    rcases step_mem h with hmem | ⟨a, v, hmem⟩ <;> rw [hmem]
    · exact hinv.memory
    · exact Memory.wf_writeWord a v hinv.memory
  rcases step_next_cases h with ⟨r, ended, hr⟩ | ⟨i, -, hrun, hpc⟩
  · refine ⟨hmemory, ended.pc ▸ hinv.aligned, fun r' hr' => ?_⟩
    cases ended.run.symm.trans hr'
    exact ended.explained hr
  · refine ⟨hmemory, hpc ▸ nextPc_aligned i hinv.aligned, fun r hr => ?_⟩
    cases hrun.symm.trans hr

/-- Settles O44: no address is mapped at reset, the pc is the text base and the run has not ended. -/
theorem resetHasTheInvariant : Obligations.ResetHasTheInvariant where
  memory := rfl
  aligned := rfl
  halt := by rintro r ⟨⟩

/-! ### Whole-machine rules -/

/-- Settles O40: `step` looks at the run state before it fetches. -/
theorem haltedMachineTakesNoStep : Obligations.HaltedMachineTakesNoStep := by
  intro s r h
  simp only [step, h]

/-- Settles O41: of the two things a step can do, only ending the run leaves it ended. -/
theorem haltingStepKeepsRegistersMemoryAndPc : Obligations.HaltingStepKeepsRegistersMemoryAndPc := by
  intro s t h hended
  rcases step_next_cases h with ⟨r, ended, -⟩ | ⟨i, -, hrun, -⟩
  · exact ⟨State.readReg_congr ended.x, ended.mem, ended.pc⟩
  · exact absurd hrun hended

/-- Settles O47: of the six effects only the store leaves another memory. -/
theorem onlyStoresChangeMemory : Obligations.OnlyStoresChangeMemory := by
  intro i s t h hne
  rcases (exec_effect h).mem with hsame | ⟨rt, imm, rs, hi, -⟩
  · exact absurd hsame hne
  · exact ⟨rt, imm, rs, hi⟩

/-- Settles O48: the one change a step can make to memory, a store, unmaps nothing. -/
theorem mappedAddressesStayMapped : Obligations.MappedAddressesStayMapped := by
  intro s t a h ha
  rcases step_mem h with hmem | ⟨c, v, hmem⟩ <;> rw [hmem]
  · exact ha
  · exact Memory.mapped_writeWord c v ha

/-- Settles O49: only the effects `write` and `read` touch a register, the one the table names. -/
theorem onlyTheTablesRegisterIsWritten : Obligations.OnlyTheTablesRegisterIsWritten :=
  fun _ _ _ h _ hr => (exec_effect h).readReg hr

/-- The jump target as the wrapped product (R160). -/
theorem jumpTarget_eq_ofNat (target : BitVec 26) : jumpTarget target = BitVec.ofNat 32 (4 * target.toNat) := by
  rw [← jumpTarget_toNat, BitVec.ofNat_toNat, BitVec.setWidth_eq]

/-- Settles O50: the instruction has not ended the run, so its pc is the next pc, in the terms of R26. -/
theorem nextPcFollowsTheTable : Obligations.NextPcFollowsTheTable := by
  intro i s t _ h hrun
  rcases (exec_effect h).run with ⟨-, hpc⟩ | ⟨r, ended, -⟩
  · rw [hpc]
    cases i with
    | j target => exact jumpTarget_eq_ofNat target
    | beq rs rt imm => simp only [nextPc, branchTarget_eq_ofInt]
    | bne rs rt imm => simp only [nextPc, branchTarget_eq_ofInt]
    | _ => rfl
  · cases ended.run.symm.trans hrun

/-- Settles O51: only the effects `print` and `halt` append, and what prints is service 1 or 4. -/
theorem outputOnlyGrowsAndOnlyByPrinting : Obligations.OutputOnlyGrowsAndOnlyByPrinting :=
  fun _ _ _ h => (exec_effect h).out

/-! ### The streams are never read -/

/-- The state with other output in front and the oracle replaced by a function of it: what an instruction
that reads neither cannot tell apart from the state. -/
def State.withStreams (o : List Byte) (g : Oracle → Oracle) (s : State) : State :=
  { s with out := o ++ s.out, oracle := g s.oracle }

/-- A function on the next state of an outcome. -/
def mapNext (f : State → State) : Host.Outcome State Fault Refusal → Host.Outcome State Fault Refusal
  | .next t => .next (f t)
  | .fault e => .fault e
  | .refused e => .refused e

section withStreams
variable (o : List Byte) (g : Oracle → Oracle) (s : State)

@[simp] theorem State.withStreams_pc : (s.withStreams o g).pc = s.pc := rfl
@[simp] theorem State.withStreams_mem : (s.withStreams o g).mem = s.mem := rfl
@[simp] theorem State.withStreams_run : (s.withStreams o g).run = s.run := rfl
@[simp] theorem State.withStreams_readReg (r : RegIdx) : (s.withStreams o g).readReg r = s.readReg r := rfl
@[simp] theorem State.withStreams_effectiveAddress (rs : RegIdx) (imm : BitVec 16) :
    (s.withStreams o g).effectiveAddress rs imm = s.effectiveAddress rs imm := rfl
@[simp] theorem State.withStreams_enterHalted (r : HaltReason) :
    (s.withStreams o g).enterHalted r = (s.enterHalted r).withStreams o g := rfl
@[simp] theorem State.withStreams_raise (e : FatalError) :
    (s.withStreams o g).raise e = (s.raise e).withStreams o g := rfl

/-- Printing appends after whatever was written before (R31). -/
theorem State.withStreams_emit (b : List Byte) :
    (s.withStreams o g).emit b = (s.emit b).withStreams o g := by
  simp only [State.withStreams, State.emit, List.append_assoc]

theorem printInteger_withStreams :
    printInteger (s.withStreams o g) = mapNext (State.withStreams o g) (printInteger s) := by
  simp only [printInteger, State.withStreams_readReg, State.withStreams_emit]
  rfl

theorem printString_withStreams :
    printString (s.withStreams o g) = mapNext (State.withStreams o g) (printString s) := by
  simp only [printString, State.withStreams_readReg, State.withStreams_mem, State.withStreams_emit]
  cases scanString s.mem scanBound (s.readReg a0Idx) <;> rfl

/-- Service 5 moves the oracle, so only the output may differ. -/
theorem readInteger_withStreams (word : Word) :
    readInteger word (s.withStreams o id) = mapNext (State.withStreams o id) (readInteger word s) := by
  have hanswer : (s.withStreams o id).nextAnswer = s.nextAnswer := rfl
  simp only [readInteger, hanswer]
  cases s.nextAnswer <;> rfl

/-- SYSCALL reads neither stream outside service 5, and never the output. -/
theorem execSyscall_withStreams {code : BitVec 20} (h : s.readReg v0Idx = 5#32 → g = id) :
    execSyscall code (s.withStreams o g) = mapNext (State.withStreams o g) (execSyscall code s) := by
  unfold execSyscall
  simp only [State.withStreams_readReg]
  split
  · exact printInteger_withStreams o g s
  · exact printString_withStreams o g s
  · next hv =>
    obtain rfl := h (BitVec.eq_of_toNat_eq hv)
    exact readInteger_withStreams o s _
  · rfl
  · rfl

/-- No instruction reads the output, and none but SYSCALL service 5 the oracle (R31, R32). -/
theorem exec_withStreams {i : Instr} (h : (∃ code, i = .syscall code) → s.readReg v0Idx = 5#32 → g = id) :
    exec i (s.withStreams o g) = mapNext (State.withStreams o g) (exec i s) := by
  cases i with
  | syscall code => exact execSyscall_withStreams o g s (h ⟨code, rfl⟩)
  | beq | bne => simp only [exec, execBeq, execBne, branchIf_eq]; rfl
  | lw rt imm rs =>
    simp only [exec, execLw, State.withStreams_effectiveAddress, State.withStreams_mem]
    cases s.mem.readWord (s.effectiveAddress rs imm) <;> rfl
  | _ => rfl

/-- The fetch reads no stream either, so neither does a step that does not take an answer. -/
theorem step_withStreams (hexec : ∀ i, exec i (s.withStreams o g) = mapNext (State.withStreams o g) (exec i s)) :
    step (s.withStreams o g) = mapNext (State.withStreams o g) (step s) := by
  rcases step_cases s with ⟨r, hr, e⟩ | ⟨hr, hm, e⟩ | ⟨b, hr, hm, hb, e⟩ | ⟨w, err, hr, hw, hd, e⟩ |
    ⟨w, _, hr, hw, hd, e⟩ <;> rw [e]
  · simp [step, hr, mapNext]
  · simp [step, hr, fetchDecode, hm, mapNext]
  · simp [step, hr, fetchDecode, hm, hb, mapNext]
  · simp [step, hr, fetchDecode_of_readWord, decodeFetched, hw, hd, mapNext]
  · simp [step, hr, fetchDecode_of_readWord, decodeFetched, hw, hd, hexec]

end withStreams

/-- Settles O52: with nothing in front of the output and the oracle replaced by `o`. -/
theorem oracleMattersOnlyToReadInteger : Obligations.OracleMattersOnlyToReadInteger :=
  fun _ s o h => exec_withStreams [] (fun _ => o) s fun hi hv => absurd hv (h hi)

/-- Settles O53: with `o` in front of the output and the oracle as it is, service 5 commutes too. -/
theorem outputIsNeverRead : Obligations.OutputIsNeverRead :=
  fun s o => step_withStreams o id s fun _ => exec_withStreams o id s fun _ _ => rfl

/-! ### Program start and the end of a run -/

/-- The registers at reset (R34). -/
theorem reset_readReg (r : RegIdx) :
    State.reset.readReg r = if r = 28#5 then 0x10008000#32 else if r = 29#5 then 0x7FFFEFFC#32 else 0#32 := by
  revert r; decide

/-- Settles O55: an accepted launch differs from the reset state in memory and known answers alone. -/
theorem launchGivesTheResetState : Obligations.LaunchGivesTheResetState := by
  intro l s h
  obtain ⟨-, -, rfl⟩ := launch_next h
  exact ⟨reset_readReg, rfl, rfl, rfl, rfl⟩

/-- Whatever the free value behind it, the status of a fatal error is not 0 (R6, D16; log 15). -/
theorem nonzeroStatus_ne_zero : nonzeroStatus ≠ 0 := by
  unfold nonzeroStatus
  split
  · decide
  · assumption

/-- Settles O59, by the halt reason. -/
theorem exitStatusIsZeroExactlyForNormalEnds : Obligations.ExitStatusIsZeroExactlyForNormalEnds := by
  intro r
  cases r with
  | noMoreInstructions | exit => exact iff_of_true rfl rfl
  | fatal e => exact iff_of_false nonzeroStatus_ne_zero Bool.false_ne_true

end Sys2Proof.Machine
end

section
/-! PROOFS, the memory (20_memory.md). First what the decoder answers on the encoder's words, what a step
does with the word it fetches and what the load and the store do; each rule on memory is then read off the
word round trip `Memory.readWord_writeWord_self` or the failing read `Memory.readWord_error_of_offset`. -/

namespace Sys2Proof

/-- Decode undoes encode, by the format of the instruction's word (R82 to R84, R140). -/
theorem decode_encode (i : Instr) : decode (encode i) = .ok i := by
  cases i with
  | add | sub | and | or | slt => simp [encode, decode, select, selectFunct, fieldsOf_rFormat]
  | syscall => simp [encode, decode, select, selectFunct, fieldsOf_syscallWord]
  | j => simp [encode, decode, select, fieldsOf_jFormat]
  | beq | bne | addiu | andi | ori | lui | lw | sw => simp [encode, decode, select, fieldsOf_iFormat]

end Sys2Proof

namespace Sys2Proof.Machine

/-! ### The frames of the shared operations -/

theorem haltsOnly_enterHalted (s : State) (r : HaltReason) : HaltsOnly s (s.enterHalted r) r :=
  ⟨rfl, fun _ => rfl, fun _ => rfl, rfl, rfl, rfl⟩

theorem haltsOnly_raise (s : State) (e : FatalError) : HaltsOnly s (s.raise e) (.fatal e) :=
  haltsOnly_enterHalted s (.fatal e)

theorem writesOnly_retire (s : State) (d : RegIdx) (v : Word) : WritesOnly s (s.retire d v) d v :=
  ⟨s.readReg_retire_self d v, fun _ hr => s.readReg_retire_of_ne hr v, rfl, fun _ => rfl, rfl, rfl, rfl⟩

/-! ### The fetch -/

/-- A running machine executes the instruction whose word stands at the pc (R113). -/
theorem step_of_readWord {s : State} {w : Word} {i : Instr} (hrun : s.run = .running)
    (hw : s.mem.readWord s.pc = .ok w) (hd : decode w = .ok i) : step s = exec i s := by
  simp [step, hrun, fetchDecode_of_readWord hw, decodeFetched, hd]

/-- A running machine that finds the byte at the pc and misses a later one raises the access to the
missing byte (R53). -/
theorem step_of_readWord_error {s : State} {b : Word} (hrun : s.run = .running)
    (hm : s.mem.mapped s.pc = true) (hw : s.mem.readWord s.pc = .error b) :
    step s = .next (s.raise (.unmappedAccess b s.pc)) := by
  simp [step, hrun, fetchDecode, hm, hw]

@[simp] theorem State.withFetchWord_run (s : State) (nbits w : Nat) :
    (s.withFetchWord nbits w).run = .running := rfl

/-- The placed word is the one that stands at the pc (R53). -/
theorem State.readWord_withFetchWord (s : State) (w : Word) :
    (s.withFetchWord 32 w.toNat).mem.readWord s.pc = .ok w := by
  have hplaced : BitVec.ofNat 32 (w.toNat % 2 ^ 32) = w := by
    rw [Nat.mod_eq_of_lt w.isLt, BitVec.ofNat_toNat, BitVec.setWidth_eq]
  rw [State.withFetchWord, hplaced]
  exact Memory.readWord_writeWord_self s.mem s.pc w

/-! ### The load and the store -/

section loadStore
variable {s : State} {rt rs : RegIdx} {imm : BitVec 16}

theorem exec_lw_of_readWord {v : Word} (h : s.mem.readWord (s.effectiveAddress rs imm) = .ok v) :
    exec (.lw rt imm rs) s = .next (s.retire rt v) := by
  simp only [exec, execLw, h]

theorem exec_lw_of_readWord_error {b : Word} (h : s.mem.readWord (s.effectiveAddress rs imm) = .error b) :
    exec (.lw rt imm rs) s = .next (s.raise (.unmappedAccess b s.pc)) := by
  simp only [exec, execLw, h]

theorem exec_sw_next {t : State} (h : exec (.sw rt imm rs) s = .next t) :
    t = (s.setMem (s.mem.writeWord (s.effectiveAddress rs imm) (s.readReg rt))).advance := by
  cases h; rfl

/-- The stored word stands at the effective address (R54). -/
theorem readWord_of_exec_sw {t : State} (h : exec (.sw rt imm rs) s = .next t) :
    t.mem.readWord (s.effectiveAddress rs imm) = .ok (s.readReg rt) := by
  rw [exec_sw_next h]
  exact Memory.readWord_writeWord_self s.mem _ _

end loadStore

/-! ### The rules on memory -/

/-- Settles O22: the first unmapped byte makes the word read fail with its address. -/
theorem lwOfUnmappedByteIsFatal : Obligations.LwOfUnmappedByteIsFatal := by
  intro rt imm rs s ea k hk hea hbefore hat
  have herror : s.mem.readWord (s.effectiveAddress rs imm) = .error (ea + BitVec.ofNat 32 k) := by
    rw [effectiveAddress_eq_ofInt, ← hea]
    exact Memory.readWord_error_of_offset hk hbefore hat
  exact ⟨_, exec_lw_of_readWord_error herror, haltsOnly_raise s _⟩

/-- Settles O24: the load reads the word that stands at the common address. -/
theorem swThenLwReturnsTheWord : Obligations.SwThenLwReturnsTheWord := by
  intro rt rs rt' rs' imm imm' s t hstore haddr
  have hread : t.mem.readWord (t.effectiveAddress rs' imm') = .ok (s.readReg rt) := by
    rw [haddr]
    exact readWord_of_exec_sw hstore
  exact ⟨_, exec_lw_of_readWord hread, writesOnly_retire t rt' _⟩

/-- Settles O36: the placed word is fetched, and it decodes to the instruction it encodes. -/
theorem placedInstructionRunsNext : Obligations.PlacedInstructionRunsNext :=
  fun i s => step_of_readWord (s.withFetchWord_run 32 _) (s.readWord_withFetchWord (encode i))
    (decode_encode i)

/-- Settles O54: after the store the pc is the effective address, where the stored word stands. -/
theorem storedInstructionIsFetchedNext : Obligations.StoredInstructionIsFetchedNext := by
  intro rt imm rs s t i hrun haddr hdecode hstore
  have hpc : t.pc = s.effectiveAddress rs imm := by simp [exec_sw_next hstore, haddr]
  have hrun' : t.run = .running := by simp [exec_sw_next hstore, hrun]
  have hread : t.mem.readWord t.pc = .ok (s.readReg rt) := hpc ▸ readWord_of_exec_sw hstore
  exact step_of_readWord hrun' hread hdecode

/-- Settles O38: the byte at the pc is mapped because `k` is not 0, so the failing word read decides. -/
theorem partialInstructionIsFatal : Obligations.PartialInstructionIsFatal := by
  intro s k hrun hpos hk hbefore hat
  have hfirst : s.mem.mapped s.pc = true := by simpa using hbefore 0 hpos
  exact ⟨_, step_of_readWord_error hrun hfirst (Memory.readWord_error_of_offset hk hbefore hat),
    haltsOnly_raise s _⟩

end Sys2Proof.Machine
end

section
/-! PROOFS, the encoding (30_encoding.md). The two maps are inverse to each other; a word's opcode and
funct fix the row that selects it and the error it is rejected with; and what an accepted word does is
said in terms of the slices its row examines. -/

namespace Sys2Proof

/-! ### A word is made of its slices -/

/-- An R-format word is rebuilt from its slices (R82). -/
theorem rFormat_fieldsOf {w : Word} {funct : Nat} (hop : w.toNat / 2 ^ 26 = 0)
    (hfn : w.toNat % 2 ^ 6 = funct) :
    rFormat (fieldsOf w).rs (fieldsOf w).rt (fieldsOf w).rd (fieldsOf w).unused funct = w := by
  apply BitVec.eq_of_toNat_eq
  rw [rFormat_toNat _ _ _ _ (by omega)]
  simp only [fieldsOf, extract_toNat]
  omega

/-- An I-format word is rebuilt from its slices (R83). -/
theorem iFormat_fieldsOf {w : Word} {opcode : Nat} (hop : w.toNat / 2 ^ 26 = opcode) :
    iFormat opcode (fieldsOf w).rs (fieldsOf w).rt (fieldsOf w).imm = w := by
  have := w.isLt
  apply BitVec.eq_of_toNat_eq
  rw [iFormat_toNat (by omega)]
  simp only [fieldsOf, extract_toNat]
  omega

/-- A J word is rebuilt from its target (R84). -/
theorem jFormat_fieldsOf {w : Word} (hop : w.toNat / 2 ^ 26 = 2) : jFormat (fieldsOf w).target = w := by
  apply BitVec.eq_of_toNat_eq
  simp only [jFormat_toNat, fieldsOf, extract_toNat]
  omega

/-- Encode undoes decode, by the format of the accepted word (R82 to R84, R140). -/
theorem encode_of_decode {w : Word} {i : Instr} (h : decode w = .ok i) : encode i = w := by
  by_cases hop : w.toNat / 2 ^ 26 = 0
  · rcases decode_rFormat_cases hop with
      ⟨hfn, e⟩ | ⟨hfn, e⟩ | ⟨hfn, e⟩ | ⟨hfn, e⟩ | ⟨hfn, e⟩ | ⟨hfn, e⟩ | ⟨-, e⟩ <;> cases e.symm.trans h
    iterate 5 exact rFormat_fieldsOf hop hfn
    exact syscallWord_code ((opcode_toNat w).trans hop) ((funct_toNat w).trans hfn)
  · rcases decode_other_cases hop with
      ⟨hop', e⟩ | ⟨hop', e⟩ | ⟨hop', e⟩ | ⟨hop', e⟩ | ⟨hop', e⟩ | ⟨hop', e⟩ | ⟨hop', e⟩ | ⟨hop', e⟩ |
      ⟨hop', e⟩ | ⟨-, e⟩ <;> cases e.symm.trans h
    · exact jFormat_fieldsOf hop'
    all_goals exact iFormat_fieldsOf hop'

/-! ### The two rejections -/

/-- R90: the opcode alone makes a word an invalid opcode. -/
theorem decode_eq_invalidOpcode_iff {w : Word} :
    decode w = .error .invalidOpcode ↔ w.toNat / 2 ^ 26 ∉ [0, 2, 4, 5, 9, 12, 13, 15, 35, 43] := by
  by_cases hop : w.toNat / 2 ^ 26 = 0
  · rcases decode_rFormat_cases hop with ⟨-, e⟩ | ⟨-, e⟩ | ⟨-, e⟩ | ⟨-, e⟩ | ⟨-, e⟩ | ⟨-, e⟩ | ⟨-, e⟩ <;>
      (rw [e, hop]; simp)
  · rcases decode_other_cases hop with
      ⟨hop', e⟩ | ⟨hop', e⟩ | ⟨hop', e⟩ | ⟨hop', e⟩ | ⟨hop', e⟩ | ⟨hop', e⟩ | ⟨hop', e⟩ | ⟨hop', e⟩ |
      ⟨hop', e⟩ | ⟨hop', e⟩
    case inr.inr.inr.inr.inr.inr.inr.inr.inr => exact iff_of_true e hop'
    all_goals rw [e, hop']; simp

/-- R91: under opcode 0, and only there, the funct makes a word an invalid funct. -/
theorem decode_eq_invalidFunct_iff {w : Word} :
    decode w = .error .invalidFunct ↔
      w.toNat / 2 ^ 26 = 0 ∧ w.toNat % 2 ^ 6 ∉ [12, 32, 34, 36, 37, 42] := by
  by_cases hop : w.toNat / 2 ^ 26 = 0
  · rcases decode_rFormat_cases hop with
      ⟨hfn, e⟩ | ⟨hfn, e⟩ | ⟨hfn, e⟩ | ⟨hfn, e⟩ | ⟨hfn, e⟩ | ⟨hfn, e⟩ | ⟨hfn, e⟩
    case inr.inr.inr.inr.inr.inr => exact iff_of_true e ⟨hop, hfn⟩
    all_goals rw [e, hfn]; simp
  · rcases decode_other_cases hop with ⟨-, e⟩ | ⟨-, e⟩ | ⟨-, e⟩ | ⟨-, e⟩ | ⟨-, e⟩ | ⟨-, e⟩ | ⟨-, e⟩ |
      ⟨-, e⟩ | ⟨-, e⟩ | ⟨-, e⟩ <;>
      exact iff_of_false (by simp [e]) fun h => hop h.1

/-! ### Words that agree under a mask -/

section masks
variable {w w' m : Word} (h : w &&& m = w' &&& m)
include h

theorem opcode_eq_of_and_eq (hm : ∀ k < 6, m.getLsbD (26 + k) = true) :
    w.toNat / 2 ^ 26 = w'.toNat / 2 ^ 26 := by
  rw [← opcode_toNat, ← opcode_toNat]
  exact congrArg BitVec.toNat (extract_eq_of_and_eq h hm)

theorem funct_eq_of_and_eq (hm : ∀ k < 6, m.getLsbD (0 + k) = true) :
    w.toNat % 2 ^ 6 = w'.toNat % 2 ^ 6 := by
  rw [← funct_toNat, ← funct_toNat]
  exact congrArg BitVec.toNat (extract_eq_of_and_eq h hm)

end masks

/-! ### The opcode table -/

/-- Opcode and, under opcode 0, funct fix the mnemonic the decoder reads (R87, R88). -/
theorem decode_mnemonic_congr {w w' : Word} (hop : w.toNat / 2 ^ 26 = w'.toNat / 2 ^ 26)
    (hfn : w'.toNat / 2 ^ 26 = 0 → w.toNat % 2 ^ 6 = w'.toNat % 2 ^ 6) :
    (decode w).map Instr.mnemonic = (decode w').map Instr.mnemonic := by
  simp only [← opcode_toNat, ← funct_toNat] at hop hfn
  unfold decode select
  rw [hop]
  split
  case h_1 h0 =>
    unfold selectFunct
    rw [hfn h0]
    split <;> rfl
  all_goals rfl

/-- Every row examines the opcode and, under opcode 0, the funct; and its pattern is itself a word of
the row's mnemonic (R86). -/
theorem opcodeTable_rows : ∀ row ∈ opcodeTable,
    row.pattern &&& row.mask = row.pattern ∧
    (∀ k < 6, row.mask.getLsbD (26 + k) = true) ∧
    (row.pattern.toNat / 2 ^ 26 = 0 → ∀ k < 6, row.mask.getLsbD (0 + k) = true) ∧
    (decode row.pattern).map Instr.mnemonic = .ok row.mnemonic := by
  decide

theorem opcodeTable_mnemonic_inj : ∀ row₁ ∈ opcodeTable, ∀ row₂ ∈ opcodeTable,
    row₁.mnemonic = row₂.mnemonic → row₁ = row₂ := by
  decide

/-- Any two rows have a bit that both examine and on which their patterns differ (R86). -/
theorem opcodeTable_patterns_disjoint : ∀ row₁ ∈ opcodeTable, ∀ row₂ ∈ opcodeTable,
    row₁.pattern &&& row₂.mask = row₂.pattern &&& row₁.mask → row₁ = row₂ := by
  decide

theorem row_eq_of_selects {row₁ row₂ : OpcodeRow} {w : Word} (h₁ : row₁ ∈ opcodeTable)
    (h₂ : row₂ ∈ opcodeTable) (hw₁ : row₁.selects w = true) (hw₂ : row₂.selects w = true) :
    row₁ = row₂ := by
  rw [OpcodeRow.selects, beq_iff_eq] at hw₁ hw₂
  apply opcodeTable_patterns_disjoint row₁ h₁ row₂ h₂
  rw [← hw₁, ← hw₂, BitVec.and_assoc, BitVec.and_assoc, BitVec.and_comm row₁.mask]

/-- The word agrees with the pattern of the row that selects it, so it has the pattern's mnemonic. -/
theorem decode_of_selects {row : OpcodeRow} {w : Word} (hrow : row ∈ opcodeTable)
    (h : row.selects w = true) : ∃ i, decode w = .ok i ∧ i.mnemonic = row.mnemonic := by
  obtain ⟨hpattern, hopmask, hfnmask, hmnemonic⟩ := opcodeTable_rows row hrow
  rw [OpcodeRow.selects, beq_iff_eq] at h
  have hagree : w &&& row.mask = row.pattern &&& row.mask := h.trans hpattern.symm
  have hdecode := decode_mnemonic_congr (opcode_eq_of_and_eq hagree hopmask)
    fun h0 => funct_eq_of_and_eq hagree (hfnmask h0)
  rw [hmnemonic] at hdecode
  cases hd : decode w with
  | error e => rw [hd] at hdecode; cases hdecode
  | ok i => rw [hd] at hdecode; exact ⟨i, rfl, Except.ok.inj hdecode⟩

/-- The encoder's word of every instruction is selected by a row of its mnemonic (R86). -/
theorem encode_selected (i : Instr) : Laws.OpcodeRow.Statement i := by
  cases i with
  | add => exact Laws.OpcodeRow.add ..
  | sub => exact Laws.OpcodeRow.sub ..
  | and => exact Laws.OpcodeRow.and ..
  | or => exact Laws.OpcodeRow.or ..
  | slt => exact Laws.OpcodeRow.slt ..
  | syscall => exact Laws.OpcodeRow.syscall ..
  | j => exact Laws.OpcodeRow.j ..
  | beq => exact Laws.OpcodeRow.beq ..
  | bne => exact Laws.OpcodeRow.bne ..
  | addiu => exact Laws.OpcodeRow.addiu ..
  | andi => exact Laws.OpcodeRow.andi ..
  | ori => exact Laws.OpcodeRow.ori ..
  | lui => exact Laws.OpcodeRow.lui ..
  | lw => exact Laws.OpcodeRow.lw ..
  | sw => exact Laws.OpcodeRow.sw ..

/-- An accepted word is the encoder's word of its instruction, which the row of its mnemonic selects. -/
theorem selects_of_decode {row : OpcodeRow} {w : Word} {i : Instr} (hrow : row ∈ opcodeTable)
    (hd : decode w = .ok i) (hmnemonic : i.mnemonic = row.mnemonic) : row.selects w = true := by
  obtain ⟨row', hrow', hmnemonic', hselects⟩ := encode_selected i
  rw [encode_of_decode hd] at hselects
  rwa [opcodeTable_mnemonic_inj row hrow row' hrow' (hmnemonic.symm.trans hmnemonic'.symm)]

end Sys2Proof

namespace Sys2Proof.Machine

/-! ### What an accepted word does, by the slices its row examines -/

/-- The ALU operation of an R-format row other than SYSCALL's, by funct (R86, R130 to R134). -/
def aluOpOfFunct : Nat → AluOp
  | 32 => .add
  | 34 => .sub
  | 36 => .and
  | 37 => .or
  | _ => .slt

section meaning
variable {w : Word} {i : Instr} (hd : decode w = .ok i)
include hd

/-- An accepted word of opcode 0 that is no SYSCALL is a register ALU operation on `rd`, `rs`, `rt`. -/
theorem exec_of_decode_registerAlu (hop : w.toNat / 2 ^ 26 = 0) (hfn : w.toNat % 2 ^ 6 ≠ 12) (s : State) :
    exec i s = .next (registerAlu (aluOpOfFunct (w.toNat % 2 ^ 6))
      (fieldsOf w).rd (fieldsOf w).rs (fieldsOf w).rt s) := by
  rcases decode_rFormat_cases hop with
    ⟨hfn', e⟩ | ⟨hfn', e⟩ | ⟨hfn', e⟩ | ⟨hfn', e⟩ | ⟨hfn', e⟩ | ⟨hfn', -⟩ | ⟨-, e⟩
  case inr.inr.inr.inr.inr.inl => exact absurd hfn' hfn
  all_goals rw [e] at hd; cases hd
  all_goals rw [hfn']; rfl

theorem exec_of_decode_lui (hop : w.toNat / 2 ^ 26 = 15) (s : State) :
    exec i s = execLui (fieldsOf w).rt (fieldsOf w).imm s := by
  have hlui : decode w = .ok (.lui (fieldsOf w).rt (fieldsOf w).imm (fieldsOf w).rs) := by
    simp only [decode, select, opcode_toNat, hop]
  cases hd.symm.trans hlui
  rfl

theorem exec_of_decode_syscall (hop : w.toNat / 2 ^ 26 = 0) (hfn : w.toNat % 2 ^ 6 = 12) (s : State) :
    exec i s = execSyscall (fieldsOf w).code s := by
  have hsyscall : decode w = .ok (.syscall (fieldsOf w).code) := by
    simp only [decode, select, selectFunct, opcode_toNat, funct_toNat, hop, hfn]
  cases hd.symm.trans hsyscall
  rfl

end meaning

/-- The services that record no word do not look at the ignored bits (R142, R143, R145). -/
theorem execSyscall_congr_code {s : State}
    (hv : s.readReg v0Idx = 1#32 ∨ s.readReg v0Idx = 4#32 ∨ s.readReg v0Idx = 10#32)
    (code code' : BitVec 20) : execSyscall code s = execSyscall code' s := by
  rcases hv with hv | hv | hv <;> simp only [execSyscall, hv] <;> rfl

/-! ### The step on a rejected word -/

/-- A running machine that fetches a rejected word raises the error of its name (R90, R91). -/
theorem step_of_decode_error {s : State} {w : Word} {e : DecodeError} (hrun : s.run = .running)
    (hw : s.mem.readWord s.pc = .ok w) (hd : decode w = .error e) :
    step s = .next (s.raise (fatalOfDecodeError e w s.pc)) := by
  simp [step, hrun, fetchDecode_of_readWord hw, decodeFetched, hd]

/-! ### The rules on encoding -/

/-- Settles O4, by the format of the instruction's word. -/
theorem decodeOfEncodeIsIdentity : Obligations.DecodeOfEncodeIsIdentity := decode_encode

/-- Settles O5: the row's opcode and funct with the slices it examines are the whole word. -/
theorem encodeOfDecodeIsIdentity : Obligations.EncodeOfDecodeIsIdentity := fun _ _ => encode_of_decode

/-- Settles O3: each field is one slice, and bit `k` of the slice from bit `r` is bit `r + k`. -/
theorem fieldsAreTheirBits : Obligations.FieldsAreTheirBits := by
  intro w
  have hslice (l r : Nat) : ∀ k < l - r + 1, (extract l r w).getLsbD k = w.getLsbD (r + k) :=
    fun _ => extract_getLsbD w
  have hlow (l : Nat) : ∀ k < l - 0 + 1, (extract l 0 w).getLsbD k = w.getLsbD k := by
    simpa only [Nat.zero_add] using hslice l 0
  exact ⟨hslice 31 26, hslice 25 21, hslice 20 16, hslice 15 11, hslice 10 6, hlow 5, hlow 15, hlow 25⟩

/-- Settles O6: selection fixes the mnemonic, the mnemonic fixes the row, and no two rows meet. -/
theorem tableSelectsExactlyTheDecodedWords : Obligations.TableSelectsExactlyTheDecodedWords := fun _ =>
  ⟨fun _ hrow => ⟨decode_of_selects hrow, fun ⟨_, hd, hmnemonic⟩ => selects_of_decode hrow hd hmnemonic⟩,
    fun _ h₁ _ h₂ => row_eq_of_selects h₁ h₂⟩

/-- Settles O7, by the decoder's answer for each opcode and funct. -/
theorem unlistedWordsAreRejectedByName : Obligations.UnlistedWordsAreRejectedByName := fun _ =>
  ⟨decode_eq_invalidOpcode_iff, decode_eq_invalidFunct_iff⟩

/-- Settles O8: the two words agree on every slice in terms of which the meaning is said. -/
theorem ignoredBitsChangeNothing : Obligations.IgnoredBitsChangeNothing := by
  intro w w' i i' s hd hd'
  refine ⟨fun hop hfn h => ?_, fun hop h => ?_, fun hop hfn h hv => ?_⟩
  · have hop' : w.toNat / 2 ^ 26 = w'.toNat / 2 ^ 26 := opcode_eq_of_and_eq h (by decide)
    have hfn' : w.toNat % 2 ^ 6 = w'.toNat % 2 ^ 6 := funct_eq_of_and_eq h (by decide)
    have hrd : (fieldsOf w).rd = (fieldsOf w').rd := extract_eq_of_and_eq h (by decide)
    have hrs : (fieldsOf w).rs = (fieldsOf w').rs := extract_eq_of_and_eq h (by decide)
    have hrt : (fieldsOf w).rt = (fieldsOf w').rt := extract_eq_of_and_eq h (by decide)
    rw [exec_of_decode_registerAlu hd hop hfn,
      exec_of_decode_registerAlu hd' (hop' ▸ hop) (hfn' ▸ hfn), hfn', hrd, hrs, hrt]
  · have hop' : w.toNat / 2 ^ 26 = w'.toNat / 2 ^ 26 := opcode_eq_of_and_eq h (by decide)
    have hrt : (fieldsOf w).rt = (fieldsOf w').rt := extract_eq_of_and_eq h (by decide)
    have himm : (fieldsOf w).imm = (fieldsOf w').imm := extract_eq_of_and_eq h (by decide)
    rw [exec_of_decode_lui hd hop, exec_of_decode_lui hd' (hop' ▸ hop), hrt, himm]
  · have hop' : w.toNat / 2 ^ 26 = w'.toNat / 2 ^ 26 := opcode_eq_of_and_eq h (by decide)
    have hfn' : w.toNat % 2 ^ 6 = w'.toNat % 2 ^ 6 := funct_eq_of_and_eq h (by decide)
    rw [exec_of_decode_syscall hd hop hfn, exec_of_decode_syscall hd' (hop' ▸ hop) (hfn' ▸ hfn)]
    exact execSyscall_congr_code hv _ _

/-- Settles O1, by running the decoder on each word. -/
theorem knownWordsDecode : Obligations.KnownWordsDecode :=
  ⟨rfl, rfl, rfl, rfl, rfl, rfl, rfl, rfl, rfl, rfl, rfl, rfl, rfl, rfl, rfl, rfl, rfl⟩

/-- Settles O39: the unlisted word is rejected by name, and the step raises that error. -/
theorem unlistedWordEndsTheRun : Obligations.UnlistedWordEndsTheRun := by
  intro s w hrun hw
  refine ⟨fun hop => ?_, fun hop hfn => ?_⟩
  · exact ⟨_, step_of_decode_error hrun hw (decode_eq_invalidOpcode_iff.mpr hop), haltsOnly_raise s _⟩
  · exact ⟨_, step_of_decode_error hrun hw (decode_eq_invalidFunct_iff.mpr ⟨hop, hfn⟩), haltsOnly_raise s _⟩

end Sys2Proof.Machine
end

section
/-! PROOFS, decode and step (40_decode_and_step.md). First everything an instruction, and then a step, can
answer, stops included; the one stop of a running machine is an endless scan, which has seen every address.
Then the induction over a run, once for every property that each step keeps. -/

namespace Sys2Proof

/-- Settles O2: the mask `2^n - 1` keeps the remainder modulo `2^n`, and the shift is the division. -/
theorem extractIsShiftAndMask : Obligations.ExtractIsShiftAndMask := by
  intro l r w _ _
  refine ⟨extract_toNat l r w, ?_⟩
  rw [extract_toNat, Nat.one_shiftLeft, Nat.and_two_pow_sub_one_eq_mod, Nat.shiftRight_eq_div_pow]

end Sys2Proof

namespace Sys2Proof.Machine

/-! ### The fetch -/

/-- A running machine that finds no byte at the pc ends its run normally (R112). -/
theorem step_of_unmapped {s : State} (hrun : s.run = .running) (hm : s.mem.mapped s.pc = false) :
    step s = .next (s.enterHalted .noMoreInstructions) := by
  simp [step, hrun, fetchDecode, hm]

/-- Settles O35: the fetch reads that word and the decoder answers that instruction. -/
theorem stepRunsTheDecodedInstruction : Obligations.StepRunsTheDecodedInstruction :=
  fun _ _ _ hrun hw hd => step_of_readWord hrun hw hd

/-- Settles O37: the step enters `HALTED`, which writes `run` alone. -/
theorem missingInstructionEndsTheRun : Obligations.MissingInstructionEndsTheRun :=
  fun s hrun hm => ⟨_, step_of_unmapped hrun hm, haltsOnly_enterHalted s _⟩

/-- Settles O58: with both images empty no byte is mapped at the text base. -/
theorem emptyProgramEndsWellAtOnce : Obligations.EmptyProgramEndsWellAtOnce :=
  ⟨_, step_of_unmapped rfl rfl, haltsOnly_enterHalted State.reset _, rfl⟩

/-! ### Where a step stops -/

/-- An endless scan has met a mapped non-zero byte at each address within its bound (R143). -/
theorem scanString_endless {m : Memory} {fuel : Nat} {a : Word} (h : scanString m fuel a = .endless)
    {k : Nat} (hk : k < fuel) : ∃ b, b ≠ 0#8 ∧ m.readByte (a + BitVec.ofNat 32 k) = some b := by
  induction fuel generalizing a k with
  | zero => omega
  | succ fuel ih =>
    rw [scanString_succ] at h
    split at h
    · cases h
    · next b hb =>
      split at h
      · cases h
      · next hne =>
        cases k with
        | zero => exact ⟨b, hne, by simpa using hb⟩
        | succ k =>
          have hrest : scanString m fuel (a + 1#32) = .endless := by
            cases hs : scanString m fuel (a + 1#32) with
            | endless => rfl
            | terminated | unmapped => rw [hs] at h; cases h
          have haddr : a + BitVec.ofNat 32 (k + 1) = a + 1#32 + BitVec.ofNat 32 k := by
            rw [BitVec.add_assoc, ← BitVec.ofNat_add, Nat.add_comm]
          exact haddr ▸ ih hrest (Nat.lt_of_succ_lt_succ hk)

/-- The bound of the scan covers the address space: an endless scan has seen every address (D24). -/
theorem readByte_of_scanString_endless {m : Memory} {a : Word} (h : scanString m scanBound a = .endless)
    (c : Word) : ∃ b, b ≠ 0#8 ∧ m.readByte c = some b := by
  have hc : a + BitVec.ofNat 32 (c - a).toNat = c := by
    rw [BitVec.ofNat_toNat, BitVec.setWidth_eq, BitVec.add_comm, BitVec.sub_add_cancel]
  exact hc ▸ scanString_endless h (c - a).isLt

/-- What service 4 is given where it never completes (R143, D24). -/
def ScansForever (s : State) : Prop :=
  s.readReg v0Idx = 4#32 ∧ scanString s.mem scanBound (s.readReg a0Idx) = .endless

/-- SYSCALL answers a next state, or scans forever (R140 to R146). -/
theorem execSyscall_outcome (code : BitVec 20) (s : State) :
    (∃ t, execSyscall code s = .next t) ∨
      ScansForever s ∧ execSyscall code s = .fault .endlessScan := by
  rcases execSyscall_cases code s with ⟨-, e⟩ | ⟨hv, e⟩ | ⟨-, e⟩ | ⟨-, e⟩ | ⟨-, -, -, -, e⟩ <;> rw [e]
  · exact .inl ⟨_, rfl⟩
  · unfold printString
    cases hscan : scanString s.mem scanBound (s.readReg a0Idx) with
    | terminated | unmapped => exact .inl ⟨_, rfl⟩
    | endless => exact .inr ⟨⟨hv, hscan⟩, rfl⟩
  · unfold readInteger
    cases s.nextAnswer <;> exact .inl ⟨_, rfl⟩
  · exact .inl ⟨_, rfl⟩
  · exact .inl ⟨_, rfl⟩

/-- Every instruction answers a next state, but for a system call that scans forever (R114). -/
theorem exec_outcome (i : Instr) (s : State) :
    (∃ t, exec i s = .next t) ∨ ScansForever s ∧ exec i s = .fault .endlessScan := by
  cases i with
  | syscall code => exact execSyscall_outcome code s
  | lw rt imm rs =>
    cases hw : s.mem.readWord (s.effectiveAddress rs imm) with
    | ok v => exact .inl ⟨_, exec_lw_of_readWord hw⟩
    | error b => exact .inl ⟨_, exec_lw_of_readWord_error hw⟩
  | _ => exact .inl ⟨_, rfl⟩

/-- Every step answers a next state, but on a halted machine and in a scan without end (R28, R114). -/
theorem step_outcome (s : State) :
    (∃ t, step s = .next t) ∨ (∃ r, s.run = .halted r ∧ step s = .fault (.halted r)) ∨
      s.run = .running ∧ ScansForever s ∧ step s = .fault .endlessScan := by
  rcases step_cases s with ⟨r, hrun, e⟩ | ⟨-, -, e⟩ | ⟨b, -, -, -, e⟩ | ⟨w, err, -, -, -, e⟩ |
    ⟨w, i, hrun, -, -, e⟩
  · exact .inr (.inl ⟨r, hrun, e⟩)
  · exact .inl ⟨_, e⟩
  · exact .inl ⟨_, e⟩
  · exact .inl ⟨_, e⟩
  · rw [e]
    exact (exec_outcome i s).imp_right fun ⟨hscan, e⟩ => .inr ⟨hrun, hscan, e⟩

/-- Settles O42, by the three things a step can answer; an endless scan has seen every address. -/
theorem stepStopsOnlyWhereTheSpecSays : Obligations.StepStopsOnlyWhereTheSpecSays := by
  intro s
  rcases step_outcome s with ⟨t, e⟩ | ⟨r, hrun, e⟩ | ⟨hrun, ⟨hv, hscan⟩, e⟩ <;> rw [e]
  · exact ⟨nofun, nofun⟩
  · refine ⟨?_, nofun⟩
    rintro _ ⟨⟩
    exact .inl ⟨r, hrun, rfl⟩
  · refine ⟨?_, nofun⟩
    rintro _ ⟨⟩
    exact .inr ⟨hrun, rfl, hv, readByte_of_scanString_endless hscan⟩

/-! ### Runs -/

/-- A run of one more step takes a step first. -/
theorem run_succ_next {n : Nat} {s t : State} (h : core.run (n + 1) s = .next t) :
    ∃ u, step s = .next u ∧ core.run n u = .next t := by
  simp only [Host.Core.run] at h
  split at h
  · next u hu => exact ⟨u, hu, h⟩
  · cases h
  · cases h

/-- What every step keeps holds of every state that a run reaches. -/
theorem run_keeps {P : State → Prop} (hstep : ∀ s t, P s → step s = .next t → P t) {n : Nat}
    {s t : State} (hs : P s) (h : core.run n s = .next t) : P t := by
  induction n generalizing s with
  | zero => cases h; exact hs
  | succ n ih =>
    obtain ⟨u, hu, hrest⟩ := run_succ_next h
    exact ih (hstep s u hs hu) hrest

/-- Program start has the invariant: storing the images keeps the memory canonical, and all else is as at
reset (R220, R221). -/
theorem inv_of_launch {l : Launch} {s : State} (h : launch l = .next s) : Inv s := by
  obtain ⟨-, -, rfl⟩ := launch_next h
  exact {
    memory := Memory.wf_storeWords _ _ (Memory.wf_storeWords _ _ rfl)
    aligned := resetHasTheInvariant.aligned
    halt := by rintro r ⟨⟩ }

/-- Settles O46: the invariant holds at program start and every step keeps it. -/
theorem everyRunKeepsTheInvariant : Obligations.EveryRunKeepsTheInvariant :=
  fun _ _ _ _ hstart hrun => run_keeps stepKeepsTheInvariant (inv_of_launch hstart) hrun

end Sys2Proof.Machine
end

section
/-! PROOFS, the register ALU instructions (41_alu_register.md). A word that the mask of the R-format rows
selects is the encoder's word of its slices, so the decoder answers those slices. What the five instructions
do is one shape, `registerAlu`; they differ in the value the ALU gives, which is said here as each rule says it. -/

namespace Sys2Proof

/-! ### The encoding -/

/-- The decoder answers an instruction on exactly the encoder's word of it. -/
theorem decode_eq_ok_iff {w : Word} {i : Instr} : decode w = .ok i ↔ encode i = w :=
  ⟨encode_of_decode, fun h => h ▸ decode_encode i⟩

/-- A word selected by an R-format row is rebuilt from its slices and the row's funct (R82, R86). -/
theorem rFormat_of_and_functMask {w : Word} {funct : Nat} (hfunct : funct < 64)
    (h : w &&& 0xFC00003F#32 = BitVec.ofNat 32 funct) :
    rFormat (fieldsOf w).rs (fieldsOf w).rt (fieldsOf w).rd (fieldsOf w).unused funct = w := by
  have hkept : w.toNat / 2 ^ 26 * 2 ^ 26 + w.toNat % 2 ^ 6 = funct := by
    rw [← and_functMask, h, BitVec.toNat_ofNat]
    omega
  exact rFormat_fieldsOf (by omega) (by omega)

end Sys2Proof

namespace Sys2Proof.Machine

/-! ### The value and the frame -/

/-- R120, R130: the ALU's sum is the integer sum of the signed values, wrapped. -/
theorem alu_add_eq_ofInt (a b : Word) : alu .add a b = BitVec.ofInt 32 (a.toInt + b.toInt) := by
  rw [BitVec.ofInt_add, BitVec.ofInt_toInt, BitVec.ofInt_toInt]
  rfl

/-- R120, R131: the ALU's difference is the integer difference of the signed values, wrapped. -/
theorem alu_sub_eq_ofInt (a b : Word) : alu .sub a b = BitVec.ofInt 32 (a.toInt - b.toInt) := by
  rw [Int.sub_eq_add_neg, BitVec.ofInt_add, BitVec.ofInt_neg, BitVec.ofInt_toInt, BitVec.ofInt_toInt,
    ← BitVec.sub_eq_add_neg]
  rfl

/-- The common part of R130 to R134: the ALU's value goes to `rd`, and nothing else but the pc changes. -/
theorem writesOnly_registerAlu (op : AluOp) (rd rs rt : RegIdx) (s : State) :
    WritesOnly s (registerAlu op rd rs rt s) rd (alu op (s.readReg rs) (s.readReg rt)) :=
  writesOnly_retire s rd _

/-! ### The rules of the register ALU instructions -/

/-- Settles O9: the word is that of its slices, and the ALU's sum is the wrapped one. -/
theorem addWritesWrappedSum : Obligations.AddWritesWrappedSum :=
  ⟨fun _ h => decode_eq_ok_iff.mpr (rFormat_of_and_functMask (by decide) h),
    fun rd rs rt _ s => ⟨_, rfl, alu_add_eq_ofInt _ _ ▸ writesOnly_registerAlu .add rd rs rt s⟩⟩

/-- Settles O10: the word is that of its slices, and the ALU's difference is the wrapped one. -/
theorem subWritesWrappedDifference : Obligations.SubWritesWrappedDifference :=
  ⟨fun _ h => decode_eq_ok_iff.mpr (rFormat_of_and_functMask (by decide) h),
    fun rd rs rt _ s => ⟨_, rfl, alu_sub_eq_ofInt _ _ ▸ writesOnly_registerAlu .sub rd rs rt s⟩⟩

/-- Settles O11: the word is that of its slices, and each bit of the ALU's value is the conjunction. -/
theorem andWritesBitwiseConjunction : Obligations.AndWritesBitwiseConjunction :=
  ⟨fun _ h => decode_eq_ok_iff.mpr (rFormat_of_and_functMask (by decide) h),
    fun rd rs rt _ s => ⟨_, _, rfl, writesOnly_registerAlu .and rd rs rt s, fun _ _ => BitVec.getLsbD_and⟩⟩

/-- Settles O12: the word is that of its slices, and each bit of the ALU's value is the disjunction. -/
theorem orWritesBitwiseDisjunction : Obligations.OrWritesBitwiseDisjunction :=
  ⟨fun _ h => decode_eq_ok_iff.mpr (rFormat_of_and_functMask (by decide) h),
    fun rd rs rt _ s => ⟨_, _, rfl, writesOnly_registerAlu .or rd rs rt s, fun _ _ => BitVec.getLsbD_or⟩⟩

/-- Settles O13: the word is that of its slices, and the ALU compares the signed values themselves. -/
theorem sltWritesSignedComparison : Obligations.SltWritesSignedComparison :=
  ⟨fun _ h => decode_eq_ok_iff.mpr (rFormat_of_and_functMask (by decide) h),
    fun rd rs rt _ s => ⟨_, rfl, writesOnly_registerAlu .slt rd rs rt s⟩⟩

end Sys2Proof.Machine
end

section
/-! PROOFS, the system call (42_system.md). The equations of the dispatch come first, one per service; then
what the decimal digits are, by induction on their number, and where a string's scan ends, by the bytes that
it passes. -/

namespace Sys2Proof.Machine

/-! ### The dispatch -/

section dispatch
variable {s : State} (code : BitVec 20)

/-- R140: service 1. -/
theorem exec_syscall_printInteger (hv : s.readReg v0Idx = 1#32) :
    exec (.syscall code) s = printInteger s := by
  simp only [exec, execSyscall, hv]
  rfl

/-- R140: service 4. -/
theorem exec_syscall_printString (hv : s.readReg v0Idx = 4#32) :
    exec (.syscall code) s = printString s := by
  simp only [exec, execSyscall, hv]
  rfl

/-- R140: service 5; the word it may record is the encoder's. -/
theorem exec_syscall_readInteger (hv : s.readReg v0Idx = 5#32) :
    exec (.syscall code) s = readInteger (encode (.syscall code)) s := by
  simp only [exec, execSyscall, hv]
  rfl

/-- R140: service 10. -/
theorem exec_syscall_exitRun (hv : s.readReg v0Idx = 10#32) : exec (.syscall code) s = exitRun s := by
  simp only [exec, execSyscall, hv]
  rfl

/-- R146: no listed service; the word recorded is the encoder's. -/
theorem exec_syscall_invalidService (h1 : s.readReg v0Idx ≠ 1#32) (h4 : s.readReg v0Idx ≠ 4#32)
    (h5 : s.readReg v0Idx ≠ 5#32) (h10 : s.readReg v0Idx ≠ 10#32) :
    exec (.syscall code) s = invalidService (encode (.syscall code)) s := by
  rcases execSyscall_cases code s with ⟨hv, -⟩ | ⟨hv, -⟩ | ⟨hv, -⟩ | ⟨hv, -⟩ | ⟨-, -, -, -, e⟩
  · exact absurd hv h1
  · exact absurd hv h4
  · exact absurd hv h5
  · exact absurd hv h10
  · exact e

end dispatch

/-- A service that prints and completes appends its bytes and goes to the next instruction. -/
theorem emitsOnly_emit_advance (s : State) (b : List Byte) : EmitsOnly s (s.emit b).advance b :=
  ⟨rfl, rfl, fun _ => rfl, fun _ => rfl, rfl, rfl⟩

/-! ### The decimal text -/

theorem digitByte_toNat {d : Nat} (h : d < 10) : (digitByte d).toNat = 0x30 + d := by
  rw [digitByte, BitVec.toNat_ofNat]
  omega

theorem digitByte_ascii {d : Nat} (h : d < 10) :
    0x30 ≤ (digitByte d).toNat ∧ (digitByte d).toNat ≤ 0x39 := by
  rw [digitByte_toNat h]
  omega

theorem digitsValue_digitByte {d : Nat} (h : d < 10) : digitsValue [digitByte d] = d := by
  simp [digitsValue, digitByte_toNat h]

theorem digitsValue_append_digitByte (digits : List Byte) {d : Nat} (h : d < 10) :
    digitsValue (digits ++ [digitByte d]) = 10 * digitsValue digits + d := by
  simp [digitsValue, digitByte_toNat h]

/-- A number below 10 is one digit, whatever the fuel. -/
theorem decimalDigits_of_lt (fuel : Nat) {n : Nat} (h : n < 10) : decimalDigits fuel n = [digitByte n] := by
  cases fuel with
  | zero => rw [decimalDigits, Nat.mod_eq_of_lt h]
  | succ fuel => rw [decimalDigits, if_pos h]

/-- The last digit of a number from 10 on follows the digits of its tenth. -/
theorem decimalDigits_of_le (fuel : Nat) {n : Nat} (h : 10 ≤ n) :
    decimalDigits (fuel + 1) n = decimalDigits fuel (n / 10) ++ [digitByte (n % 10)] := by
  rw [decimalDigits, if_neg (Nat.not_lt.mpr h)]

/-- What R142 asks of the digits of a number: ASCII digits, at least one, that read back as the number, and
no leading zero but in the text of 0. -/
structure IsDecimal (n : Nat) (digits : List Byte) : Prop where
  ne_nil : digits ≠ []
  ascii  : ∀ b ∈ digits, 0x30 ≤ b.toNat ∧ b.toNat ≤ 0x39
  value  : digitsValue digits = n
  head   : digits.head? = some 0x30#8 → digits = [0x30#8]

theorem isDecimal_digitByte {d : Nat} (h : d < 10) : IsDecimal d [digitByte d] where
  ne_nil := List.cons_ne_nil _ _
  ascii b hb := List.mem_singleton.mp hb ▸ digitByte_ascii h
  value := digitsValue_digitByte h
  head hhead := by simpa using hhead

/-- One more digit keeps the form, because a number from 10 on has a tenth that is not 0, whose digits
then do not begin with a zero. -/
theorem IsDecimal.append_digitByte {n : Nat} {digits : List Byte} (h : IsDecimal (n / 10) digits)
    (hn : 10 ≤ n) : IsDecimal n (digits ++ [digitByte (n % 10)]) where
  ne_nil := List.append_ne_nil_of_left_ne_nil h.ne_nil _
  ascii b hb := (List.mem_append.mp hb).elim (h.ascii b)
    fun hlast => List.mem_singleton.mp hlast ▸ digitByte_ascii (Nat.mod_lt n (by decide))
  value := by
    rw [digitsValue_append_digitByte _ (Nat.mod_lt n (by decide)), h.value]
    omega
  head hhead := by
    rw [List.head?_append_of_ne_nil _ h.ne_nil] at hhead
    have hzero : n / 10 = 0 := by rw [← h.value, h.head hhead]; rfl
    omega

/-- The model's digits have the form, where the fuel allows as many as the number has. -/
theorem isDecimal_decimalDigits {fuel n : Nat} (h : n < 10 ^ (fuel + 1)) :
    IsDecimal n (decimalDigits fuel n) := by
  induction fuel generalizing n with
  | zero =>
    rw [decimalDigits_of_lt 0 h]
    exact isDecimal_digitByte h
  | succ fuel ih =>
    rcases Nat.lt_or_ge n 10 with hn | hn
    · rw [decimalDigits_of_lt _ hn]
      exact isDecimal_digitByte hn
    · rw [decimalDigits_of_le fuel hn]
      exact (ih (Nat.div_lt_of_lt_mul (Nat.pow_succ' ▸ h))).append_digitByte hn

theorem decimalText_eq (n : Int) :
    decimalText n = (if n < 0 then [0x2D#8] else []) ++ decimalDigits 9 n.natAbs := by
  unfold decimalText
  split <;> rfl

/-- The magnitude of a 32-bit value has ten digits at most. -/
theorem natAbs_toInt_lt (v : Word) : v.toInt.natAbs < 10 ^ 10 := by
  have hlt := v.toInt_lt
  have hle := v.le_toInt
  omega

/-! ### The scan of a string -/

section endsAfter
variable {m : Memory} {a : Word} {bytes : List Byte} {bound : Nat} (hlen : bytes.length < bound)
  (hbytes : ∀ k (hk : k < bytes.length), bytes[k] ≠ 0#8 ∧
    m.readByte (a + BitVec.ofNat 32 k) = some bytes[k])
include hlen hbytes

/-- A zero byte after fewer mapped non-zero bytes than the bound ends the scan (R143). -/
theorem scanString_eq_terminated
    (hzero : m.readByte (a + BitVec.ofNat 32 bytes.length) = some 0#8) :
    scanString m bound a = .terminated bytes := by
  obtain ⟨fuel, rfl⟩ := Nat.exists_eq_add_of_lt hlen
  rw [Nat.add_assoc, scanString_append (fuel + 1) hbytes, scanString_succ, hzero]
  simp only [if_true, foldr_prepend_terminated, List.append_nil]

/-- An unmapped byte after fewer mapped non-zero bytes than the bound ends the scan (R143). -/
theorem scanString_eq_unmapped
    (hnone : m.readByte (a + BitVec.ofNat 32 bytes.length) = none) :
    scanString m bound a = .unmapped bytes (a + BitVec.ofNat 32 bytes.length) := by
  obtain ⟨fuel, rfl⟩ := Nat.exists_eq_add_of_lt hlen
  rw [Nat.add_assoc, scanString_append (fuel + 1) hbytes, scanString_succ, hnone]
  simp only [foldr_prepend_unmapped, List.append_nil]

end endsAfter

/-- Over mapped non-zero bytes alone no fuel brings the scan to an end (R143). -/
theorem scanString_eq_endless {m : Memory} (h : ∀ a, ∃ b, b ≠ 0#8 ∧ m.readByte a = some b) (fuel : Nat)
    (a : Word) : scanString m fuel a = .endless := by
  induction fuel generalizing a with
  | zero => rfl
  | succ fuel ih =>
    obtain ⟨b, hb, hread⟩ := h a
    simp only [scanString_succ, hread, if_neg hb, ih, Scan.prepend]

/-- The mapped non-zero bytes of a run, as a list. -/
theorem exists_bytes_of_mapped {m : Memory} {a : Word} {n : Nat}
    (h : ∀ k < n, ∃ b, b ≠ 0#8 ∧ m.readByte (a + BitVec.ofNat 32 k) = some b) :
    ∃ bytes : List Byte, bytes.length = n ∧ ∀ k (hk : k < bytes.length), bytes[k] ≠ 0#8 ∧
      m.readByte (a + BitVec.ofNat 32 k) = some bytes[k] := by
  choose byteAt hbyteAt using h
  refine ⟨List.ofFn fun k : Fin n => byteAt k k.isLt, List.length_ofFn, fun k hk => ?_⟩
  rw [List.getElem_ofFn]
  exact hbyteAt k _

/-! ### The rules of the services -/

/-- Settles O26: ten digits are enough for the magnitude, and its digits have the form of R142. -/
theorem decimalTextReadsBackAsTheInteger : Obligations.DecimalTextReadsBackAsTheInteger := by
  intro v
  obtain ⟨hne, hascii, hvalue, hhead⟩ := isDecimal_decimalDigits (fuel := 9) (natAbs_toInt_lt v)
  exact ⟨_, decimalText_eq v.toInt, hne, hascii, hvalue, hhead⟩

/-- Settles O27: the scan ends at the zero byte with the bytes before it. -/
theorem printStringEmitsBytesBeforeZero : Obligations.PrintStringEmitsBytesBeforeZero := by
  intro code s bytes hv hlen hbytes hzero
  have hscan : scanString s.mem scanBound (s.readReg a0Idx) = .terminated bytes :=
    scanString_eq_terminated hlen hbytes hzero
  refine ⟨(s.emit bytes).advance, ?_, emitsOnly_emit_advance s bytes⟩
  rw [exec_syscall_printString code hv, printString, hscan]

/-- Settles O28: the scan ends at the unmapped byte, whose address the raised error names. -/
theorem printStringOfUnmappedByteIsFatal : Obligations.PrintStringOfUnmappedByteIsFatal := by
  intro code s n hv hn hmapped hnone
  obtain ⟨bytes, rfl, hbytes⟩ := exists_bytes_of_mapped hmapped
  let addr := s.readReg a0Idx + BitVec.ofNat 32 bytes.length
  have hscan : scanString s.mem scanBound (s.readReg a0Idx) = .unmapped bytes addr :=
    scanString_eq_unmapped hn hbytes hnone
  refine ⟨(s.emit bytes).raise (.unmappedAccess addr s.pc), ?_, rfl, fun _ => rfl, fun _ => rfl, rfl, rfl⟩
  rw [exec_syscall_printString code hv, printString, hscan]

/-- Settles O29: the scan is endless within every bound. -/
theorem printStringWithoutEndNeverCompletes : Obligations.PrintStringWithoutEndNeverCompletes := by
  intro code s hv hmapped
  rw [exec_syscall_printString code hv, printString, scanString_eq_endless hmapped]

/-- Settles O34: a system call has no destination register and is no store, no jump and no branch, so its
effect writes no memory, no register but in service 5, and no pc but `pc + 4`. -/
theorem syscallLeavesTheRestAlone : Obligations.SyscallLeavesTheRestAlone := by
  intro code s t h
  have heffect := exec_effect h
  have hregs (r : RegIdx) (hr : r ≠ v0Idx ∨ s.readReg v0Idx ≠ 5#32) : t.readReg r = s.readReg r := by
    refine heffect.readReg ?_
    rintro (hd | ⟨-, hv, rfl⟩)
    · cases hd
    · exact hr.elim (absurd rfl) (absurd hv)
  have hbytes : SameBytes s t := by
    rcases heffect.mem with hmem | ⟨_, _, _, hi, -⟩
    · exact fun a => by rw [hmem]
    · cases hi
  have hrun : t.pc = s.pc + 4#32 ∧ t.run = s.run ∨ t.pc = s.pc ∧ ∃ r, t.run = .halted r :=
    heffect.run.imp And.symm fun ⟨r, ended, _⟩ => ⟨ended.pc, r, ended.run⟩
  exact ⟨hregs a0Idx (.inl (by decide)), hbytes, hrun, hregs⟩

/-- Settles O25: service 1 prints that text and completes. -/
theorem printIntegerEmitsDecimalText : Obligations.PrintIntegerEmitsDecimalText :=
  fun code s hv => ⟨_, exec_syscall_printInteger code hv, emitsOnly_emit_advance s _⟩

/-- Settles O30: the answer goes to the service register of the state whose oracle has moved on. -/
theorem readIntegerWritesTheAnswer : Obligations.ReadIntegerWritesTheAnswer := by
  intro code s v hv hanswer
  refine ⟨s.takeAnswer.retire v0Idx v, ?_, s.takeAnswer.readReg_retire_self v0Idx v,
    fun r hr => s.takeAnswer.readReg_retire_of_ne hr v, rfl, fun _ => rfl, rfl, rfl, rfl, rfl⟩
  rw [exec_syscall_readInteger code hv, readInteger, hanswer]

/-- Settles O31: the error is raised in the state whose oracle has moved on, which keeps all else. -/
theorem readIntegerOfInvalidInputIsFatal : Obligations.ReadIntegerOfInvalidInputIsFatal := by
  intro code s hv hanswer
  refine ⟨s.takeAnswer.raise (.invalidInput (encode (.syscall code)) s.pc), ?_,
    rfl, fun _ => rfl, fun _ => rfl, rfl, rfl⟩
  rw [exec_syscall_readInteger code hv, readInteger, hanswer]

/-- Settles O32: service 10 enters `HALTED`, which writes `run` alone. -/
theorem exitEndsTheRun : Obligations.ExitEndsTheRun :=
  fun code s hv => ⟨_, exec_syscall_exitRun code hv, haltsOnly_enterHalted s _⟩

/-- Settles O33: what is none of the listed services raises the error, which writes `run` alone. -/
theorem unlistedServiceIsFatal : Obligations.UnlistedServiceIsFatal :=
  fun code s h1 h4 h5 h10 =>
    ⟨_, exec_syscall_invalidService code h1 h4 h5 h10, haltsOnly_raise s _⟩

end Sys2Proof.Machine
end

section
/-! PROOFS, control transfer (43_control_transfer.md). A word that the opcode mask selects is the encoder's
word of its slices, so the decoder answers those slices. What J, BEQ and BNE do is one shape, a jump; they
differ in where it goes. -/

namespace Sys2Proof

/-! ### The encoding -/

/-- What the opcode mask keeps of a word fixes its opcode (R81, R86). -/
theorem opcode_of_and_opcodeMask {w : Word} {opcode : Nat} (hopcode : opcode < 64)
    (h : w &&& 0xFC000000#32 = BitVec.ofNat 32 (opcode * 2 ^ 26)) : w.toNat / 2 ^ 26 = opcode := by
  have hkept : w.toNat / 2 ^ 26 * 2 ^ 26 = opcode * 2 ^ 26 := by
    rw [← and_opcodeMask, h, BitVec.toNat_ofNat]
    omega
  omega

/-- A word selected by an I-format row is rebuilt from its slices and the row's opcode (R83, R86). -/
theorem iFormat_of_and_opcodeMask {w : Word} {opcode : Nat} (hopcode : opcode < 64)
    (h : w &&& 0xFC000000#32 = BitVec.ofNat 32 (opcode * 2 ^ 26)) :
    iFormat opcode (fieldsOf w).rs (fieldsOf w).rt (fieldsOf w).imm = w :=
  iFormat_fieldsOf (opcode_of_and_opcodeMask hopcode h)

end Sys2Proof

namespace Sys2Proof.Machine

/-! ### The jump and the two branches -/

theorem jumpsOnly_jumpTo (s : State) (p : Word) : JumpsOnly s (s.jumpTo p) p :=
  ⟨rfl, fun _ => rfl, fun _ => rfl, rfl, rfl, rfl⟩

section branches
variable (rs rt : RegIdx) (imm : BitVec 16) (s : State)

/-- R161: BEQ is a jump to the branch target on equal registers, and else to the next instruction. -/
theorem exec_beq : exec (.beq rs rt imm) s =
    .next (s.jumpTo (if s.readReg rs = s.readReg rt then s.branchTarget imm else s.pc + 4#32)) := by
  simp only [exec, execBeq, aluEq_eq_one, branchIf_eq, decide_eq_true_eq]

/-- R162: BNE is a jump to the branch target on unequal registers, and else to the next instruction. -/
theorem exec_bne : exec (.bne rs rt imm) s =
    .next (s.jumpTo (if s.readReg rs ≠ s.readReg rt then s.branchTarget imm else s.pc + 4#32)) := by
  simp only [exec, execBne, aluEq_eq_zero, branchIf_eq, decide_eq_true_eq]

end branches

/-! ### The rules of control transfer -/

/-- Settles O18: the word is that of its target, and the jump target is the wrapped product. -/
theorem jumpGoesToTarget : Obligations.JumpGoesToTarget :=
  ⟨fun _ h => decode_eq_ok_iff.mpr (jFormat_fieldsOf (opcode_of_and_opcodeMask (by decide) h)),
    fun target s => ⟨_, rfl, jumpTarget_eq_ofNat target ▸ jumpsOnly_jumpTo s _⟩⟩

/-- Settles O19: the word is that of its slices, and the branch target is the wrapped sum. -/
theorem beqBranchesOnEqual : Obligations.BeqBranchesOnEqual :=
  ⟨fun _ h => decode_eq_ok_iff.mpr (iFormat_of_and_opcodeMask (by decide) h),
    fun rs rt imm s => ⟨_, exec_beq rs rt imm s, branchTarget_eq_ofInt s imm ▸ jumpsOnly_jumpTo s _⟩⟩

/-- Settles O20: the word is that of its slices, and the branch target is the wrapped sum. -/
theorem bneBranchesOnUnequal : Obligations.BneBranchesOnUnequal :=
  ⟨fun _ h => decode_eq_ok_iff.mpr (iFormat_of_and_opcodeMask (by decide) h),
    fun rs rt imm s => ⟨_, exec_bne rs rt imm s, branchTarget_eq_ofInt s imm ▸ jumpsOnly_jumpTo s _⟩⟩

end Sys2Proof.Machine
end

section
/-! PROOFS, the immediate ALU instructions (44_alu_immediate.md). The word that an I-format row selects is the
encoder's word of its slices, as for control transfer. ADDIU, ANDI and ORI are one shape, `immediateAlu`, and
LUI writes its register in the same way; what is left to say is the value, by the extension of R85: the
sign-extended immediate has the immediate's signed value, the zero-extended one has the immediate's bits. -/

namespace Sys2Proof.Machine

/-! ### The extended immediate -/

/-- R85, ADDIU: sign extension keeps the signed value. -/
theorem sext_toInt (imm : BitVec 16) : (sext imm).toInt = imm.toInt :=
  BitVec.toInt_signExtend_of_le (by decide)

/-- R85, ANDI, ORI and LUI: zero extension keeps every bit; past bit 15 both sides are 0. -/
theorem zext_getLsbD (imm : BitVec 16) (k : Nat) : (zext imm).getLsbD k = imm.getLsbD k := by
  rw [zext, BitVec.getLsbD_setWidth, Bool.and_eq_right_iff_imp, decide_eq_true_eq]
  intro hbit
  have hk := BitVec.lt_of_getLsbD hbit
  omega

/-! ### The value and the frame -/

/-- R120, R171: each bit of the ALU's value is the conjunction with the immediate's bit. -/
theorem alu_and_zext_getLsbD (a : Word) (imm : BitVec 16) (k : Nat) :
    (alu .and a (zext imm)).getLsbD k = (a.getLsbD k && imm.getLsbD k) := by
  rw [alu, aluAnd, BitVec.getLsbD_and, zext_getLsbD]

/-- R120, R172: each bit of the ALU's value is the disjunction with the immediate's bit. -/
theorem alu_or_zext_getLsbD (a : Word) (imm : BitVec 16) (k : Nat) :
    (alu .or a (zext imm)).getLsbD k = (a.getLsbD k || imm.getLsbD k) := by
  rw [alu, aluOr, BitVec.getLsbD_or, zext_getLsbD]

/-- R120, R173: the ALU's `lui` moves the immediate up by 16 bits, and nothing is lost at the top. -/
theorem alu_lui_zext_eq_ofNat (a : Word) (imm : BitVec 16) :
    alu .lui a (zext imm) = BitVec.ofNat 32 (imm.toNat * 2 ^ 16) := by
  have himm : (zext imm).toNat = imm.toNat := BitVec.toNat_setWidth_of_le (by decide)
  apply BitVec.eq_of_toNat_eq
  rw [BitVec.toNat_ofNat, alu, aluLui, BitVec.toNat_shiftLeft, himm, Nat.shiftLeft_eq]

/-- The common part of R170 to R172: the ALU's value goes to `rt`, and nothing else but the pc changes. -/
theorem writesOnly_immediateAlu (op : AluOp) (rt rs : RegIdx) (operand : Word) (s : State) :
    WritesOnly s (immediateAlu op rt rs operand s) rt (alu op (s.readReg rs) operand) :=
  writesOnly_retire s rt _

/-! ### The rules of the immediate ALU instructions -/

/-- Settles O14: the word is that of its slices, and the ALU's sum is the wrapped one. -/
theorem addiuAddsSignedImmediate : Obligations.AddiuAddsSignedImmediate := by
  refine ⟨fun _ h => decode_eq_ok_iff.mpr (iFormat_of_and_opcodeMask (by decide) h),
    fun rt rs imm s => ⟨_, rfl, ?_⟩⟩
  rw [← sext_toInt, ← alu_add_eq_ofInt]
  exact writesOnly_immediateAlu .add rt rs (sext imm) s

/-- Settles O15: the word is that of its slices, and the immediate has no bit in the high half to keep. -/
theorem andiMasksWithRawImmediate : Obligations.AndiMasksWithRawImmediate := by
  refine ⟨fun _ h => decode_eq_ok_iff.mpr (iFormat_of_and_opcodeMask (by decide) h),
    fun rt rs imm s => ⟨_, _, rfl, writesOnly_immediateAlu .and rt rs (zext imm) s, ?_⟩⟩
  refine ⟨fun k _ => alu_and_zext_getLsbD _ imm k, fun k _ hk => ?_⟩
  rw [alu_and_zext_getLsbD, BitVec.getLsbD_of_ge imm k hk, Bool.and_false]

/-- Settles O16: the word is that of its slices, and the immediate has no bit in the high half to set. -/
theorem oriSetsWithRawImmediate : Obligations.OriSetsWithRawImmediate := by
  refine ⟨fun _ h => decode_eq_ok_iff.mpr (iFormat_of_and_opcodeMask (by decide) h),
    fun rt rs imm s => ⟨_, _, rfl, writesOnly_immediateAlu .or rt rs (zext imm) s, ?_⟩⟩
  refine ⟨fun k _ => alu_or_zext_getLsbD _ imm k, fun k _ hk => ?_⟩
  rw [alu_or_zext_getLsbD, BitVec.getLsbD_of_ge imm k hk, Bool.or_false]

/-- Settles O17: the word is that of its slices, the ignored one too, and the ALU's value is the product. -/
theorem luiLoadsHighHalf : Obligations.LuiLoadsHighHalf :=
  ⟨fun _ h => decode_eq_ok_iff.mpr (iFormat_of_and_opcodeMask (by decide) h),
    fun rt imm _ s => ⟨_, rfl, alu_lui_zext_eq_ofNat 0#32 imm ▸ writesOnly_retire s rt _⟩⟩

end Sys2Proof.Machine
end

section
/-! PROOFS, the load and the store (45_load_store.md). A load is the word read of 20_memory.md with its value
written back; a store is the word write, and what a byte reads as after it is said once, for the four stored
bytes and for every other one. -/

namespace Sys2Proof.Machine

/-! ### The bytes of a stored word -/

/-- R51: the byte stored at offset `k` is the slice of eight bits from bit `8k` up. -/
theorem byteOf_eq_extractLsb' (v : Word) (k : Nat) : byteOf v k = v.extractLsb' (8 * k) 8 := by
  rw [byteOf, BitVec.extractLsb', Nat.shiftRight_eq_div_pow]

/-- R51, R57: after a word store its four bytes stand at their addresses, also across the wrap. -/
theorem Memory.readByte_writeWord_inside (m : Memory) (a v : Word) :
    (m.writeWord a v).readByte a = some (byteOf v 0) ∧
    (m.writeWord a v).readByte (a + 1#32) = some (byteOf v 1) ∧
    (m.writeWord a v).readByte (a + 2#32) = some (byteOf v 2) ∧
    (m.writeWord a v).readByte (a + 3#32) = some (byteOf v 3) := by
  simp only [readByte_writeWord, word_addresses_ne a, if_true, if_false, and_self]

/-- R51: a word store leaves every byte outside its four alone. -/
theorem Memory.readByte_writeWord_outside {m : Memory} {a v c : Word} (h : ¬ InWord a c) :
    (m.writeWord a v).readByte c = m.readByte c := by
  simp only [InWord, not_or] at h
  obtain ⟨h0, h1, h2, h3⟩ := h
  rw [readByte_writeWord, if_neg h3, if_neg h2, if_neg h1, if_neg h0]

/-! ### The rules of the load and the store -/

/-- Settles O21: the four mapped bytes make the word read succeed, and the load writes its value back. -/
theorem lwLoadsLittleEndianWord : Obligations.LwLoadsLittleEndianWord := by
  intro rt imm rs s ea b0 b1 b2 b3 hea h0 h1 h2 h3
  have hread : s.mem.readWord (s.effectiveAddress rs imm) = .ok (wordOfBytes b0 b1 b2 b3) := by
    rw [effectiveAddress_eq_ofInt, ← hea]
    exact Memory.readWord_ok_iff.mpr ⟨b0, b1, b2, b3, h0, h1, h2, h3, rfl⟩
  exact ⟨_, exec_lw_of_readWord hread, writesOnly_retire s rt _⟩

/-- Settles O23: the memory afterwards is the word write's, and nothing else but the pc is written. -/
theorem swStoresLittleEndianWord : Obligations.SwStoresLittleEndianWord := by
  intro rt imm rs s
  refine ⟨_, rfl, effectiveAddress_eq_ofInt s rs imm, ?_, fun _ => rfl, rfl, rfl, rfl, rfl⟩
  rintro ea rfl
  obtain ⟨h0, h1, h2, h3⟩ :=
    s.mem.readByte_writeWord_inside (s.effectiveAddress rs imm) (s.readReg rt)
  rw [byteOf_eq_extractLsb'] at h0 h1 h2 h3
  exact ⟨h0, h1, h2, h3, fun _ => Memory.readByte_writeWord_outside⟩

end Sys2Proof.Machine
end

section
/-! PROOFS, program start (70_reset_and_hazards.md). The two checks of R222 as arithmetic on the images' byte
ranges, what `launch` answers by the checks, and where an image is placed: a word outside it reads as before,
and it maps no address outside its range. -/

namespace Sys2Proof.Launch

/-- R222: no image passes the top of the address space. -/
theorem imagesFit_iff {l : Launch} :
    l.imagesFit = true ↔
      0x00400000 + 4 * l.text.length ≤ 2 ^ 32 ∧ l.dataBase.toNat + 4 * l.data.length ≤ 2 ^ 32 :=
  decide_eq_true_iff

/-- R222: an image is empty, or one ends before the other begins. -/
theorem imagesDisjoint_iff {l : Launch} :
    l.imagesDisjoint = true ↔
      l.text.length = 0 ∨ l.data.length = 0 ∨ 0x00400000 + 4 * l.text.length ≤ l.dataBase.toNat ∨
        l.dataBase.toNat + 4 * l.data.length ≤ 0x00400000 :=
  decide_eq_true_iff

end Sys2Proof.Launch

namespace Sys2Proof.Machine

/-! ### The answer of a launch -/

theorem launch_of_wellFormed {l : Launch} (h : l.wellFormed = true) :
    launch l =
      .next { State.reset with mem := imageMemory l, oracle := { known := l.answers, taken := 0 } } := by
  obtain ⟨hfit, hdisj⟩ := Bool.and_eq_true_iff.mp h
  rw [launch, if_pos hfit, if_pos hdisj]

theorem launch_of_not_imagesFit {l : Launch} (hfit : ¬ l.imagesFit = true) :
    launch l = .refused .imageWraps :=
  if_neg hfit

theorem launch_of_not_imagesDisjoint {l : Launch} (hfit : l.imagesFit = true)
    (hdisj : ¬ l.imagesDisjoint = true) : launch l = .refused .imagesOverlap := by
  rw [launch, if_pos hfit, if_neg hdisj]

/-! ### The place of an image -/

namespace Memory

/-- A word outside an image that fits reads as before the image is placed (R221). -/
theorem readWord_storeWords_outside {ws : List Word} {m : Memory} {a c : Word}
    (hfit : a.toNat + 4 * ws.length ≤ 2 ^ 32) (hword : c.toNat + 4 ≤ 2 ^ 32)
    (hc : ws.length = 0 ∨ c.toNat + 4 ≤ a.toNat ∨ a.toNat + 4 * ws.length ≤ c.toNat) :
    (m.storeWords a ws).readWord c = m.readWord c := by
  apply readWord_congr <;> apply readByte_storeWords_outside hfit <;> bv_omega

/-- Placing an image that fits maps no address outside its byte range (R221). -/
theorem mapped_storeWords_cases {ws : List Word} {m : Memory} {a c : Word}
    (hfit : a.toNat + 4 * ws.length ≤ 2 ^ 32) (h : (m.storeWords a ws).mapped c = true) :
    m.mapped c = true ∨ (a.toNat ≤ c.toNat ∧ c.toNat < a.toNat + 4 * ws.length) := by
  by_cases hin : a.toNat ≤ c.toNat ∧ c.toNat < a.toNat + 4 * ws.length
  · exact .inr hin
  · rw [mapped, readByte_storeWords_outside hfit (by omega)] at h
    exact .inl h

end Memory

/-! ### The rules of program start -/

/-- Settles O45: storing the images keeps the memory canonical, and all else is as at reset. -/
theorem launchHasTheInvariant : Obligations.LaunchHasTheInvariant :=
  fun _ _ => inv_of_launch

/-- Settles O56: a word of the instruction image stands outside the data image, which is placed second, so
it reads as it was placed. -/
theorem launchPlacesExactlyTheImages : Obligations.LaunchPlacesExactlyTheImages := by
  intro l h
  obtain ⟨hfit, hdisj⟩ := Bool.and_eq_true_iff.mp h
  obtain ⟨htext, hdata⟩ := Launch.imagesFit_iff.mp hfit
  refine ⟨_, launch_of_wellFormed h, fun k hk => ?_, fun k hk => ?_, fun a ha => ?_⟩
  · have haddr : (0x00400000#32 + BitVec.ofNat 32 (4 * k)).toNat = 0x00400000 + 4 * k := by bv_omega
    have houtside := Launch.imagesDisjoint_iff.mp hdisj
    exact (Memory.readWord_storeWords_outside hdata (by omega) (by omega)).trans
      (Memory.readWord_storeWords (a := Config.textBase) htext hk)
  · exact Memory.readWord_storeWords hdata hk
  · rcases Memory.mapped_storeWords_cases hdata ha with htextOnly | hin
    · rcases Memory.mapped_storeWords_cases (a := Config.textBase) htext htextOnly with hempty | hin
      · cases hempty
      · exact .inl hin
    · exact .inr hin

/-- Settles O57: an image past the top fails the first check; an address in both images is in two ranges of
which neither ends before the other begins, so they fail the second. -/
theorem launchRefusesIllFormedImages : Obligations.LaunchRefusesIllFormedImages := by
  intro l
  constructor
  · intro hwrap
    have hfit : ¬ l.imagesFit = true := by rw [Launch.imagesFit_iff]; omega
    exact launch_of_not_imagesFit hfit
  · rintro htext hdata ⟨a, htextFrom, htextTo, hdataFrom, hdataTo⟩
    have hdisj : ¬ l.imagesDisjoint = true := by rw [Launch.imagesDisjoint_iff]; omega
    exact launch_of_not_imagesDisjoint (Launch.imagesFit_iff.mpr ⟨htext, hdata⟩) hdisj

end Sys2Proof.Machine
end
